-- ==== Sys2Proof/Word.lean ====
section
/-! DEFINITION. The data widths of the block: bytes, 16-byte blocks, key words and the key schedule
(00_scope.md R11, R12; 41_aes128_core.md R163, R172, R174). -/

namespace Sys2Proof

/-- A byte: an unsigned 8-bit value (00_scope.md R11). Bus addresses are bytes too (20_memory.md R71). -/
abbrev Byte := BitVec 8

/-- Half a byte: a field of a command (30_encoding.md R100). -/
abbrev Nibble := BitVec 4

/-- A 16-byte sequence: `KEY`, `IV_CONST`, `CV`, a round key, a block of `BUF` (00_scope.md R6, R12). -/
abbrev Block := Vector Byte 16

/-- A word of the key schedule: 4 bytes, `a0` first (41_aes128_core.md R172). -/
abbrev KeyWord := Vector Byte 4

/-- `RK[0..10]`: 11 round keys of 16 bytes (10_state.md R45). -/
abbrev RoundKeys := Vector Block 11

end Sys2Proof
end

