-- ==== Sys2Proof/Syntax.lean ====
section
/-! DEFINITION. The commands (one constructor per row of spec/opcode_table.json), the fields of their one
format, and the events of a host program. -/

namespace Sys2Proof

/-- The commands of 30_encoding.md R102. They carry no operand: every operand is implicit state (R101). -/
inductive Instr where
  | nop
  | pad
  | unpad
  | enc
  | dec
  | zeroize
  deriving DecidableEq, Repr

/-- The fields of the one command format `CMD8` (30_encoding.md R100). -/
structure CmdFields where
  /-- Bits 7:4, `RSV`. -/
  rsv : Nibble
  /-- Bits 3:0, `OP`. -/
  op : Nibble
  deriving DecidableEq, Repr

/-- One event on the block, from one of the three agents of 00_scope.md R9.
`write` and `read` are the two primitive forms of a host program (30_encoding.md R105).
DESIGN CHOICE, log 1 (safe): which agent moves next is said by a list of these events in State. -/
inductive Event where
  /-- `R a`: the host reads address `a` (20_memory.md R73). -/
  | read (a : Byte)
  /-- `W a, v`: the host writes `v` to address `a` (20_memory.md R74). -/
  | write (a v : Byte)
  /-- The core's turn: a core step if one is enabled (00_scope.md R9). -/
  | core
  /-- The reset input is asserted (70_reset_and_hazards.md R280). -/
  | reset
  deriving DecidableEq, Repr

/-- What an address of the register map names (20_memory.md R71). -/
inductive Target where
  | buf (i : Fin 64)
  | key (i : Fin 16)
  | cmd
  | status
  | errcode
  | ctrl
  | mlen
  | plen
  | unmapped
  deriving DecidableEq, Repr

end Sys2Proof
end

