-- ==== Sys2Proof/WellFormed.lean ====
section
/-! DEFINITION. Which command fields are a command. The commands themselves (`Instr`) have no fields, so every
`Instr` is well-formed; what can be ill-formed is the pair of fields a byte carries (30_encoding.md R100, R103). -/

namespace Sys2Proof

/-- `RSV` must be `0000` (30_encoding.md R100). -/
def CmdFields.rsvZero (f : CmdFields) : Bool := f.rsv == 0

/-- `OP` must be one of `0x0..0x5` (30_encoding.md R102, R103). -/
def CmdFields.opAssigned (f : CmdFields) : Bool := f.op.toNat < 6

/-- The fields of a legal command (30_encoding.md R103: every other byte is illegal). -/
def CmdFields.wellFormed (f : CmdFields) : Bool := f.rsvZero && f.opAssigned

end Sys2Proof
end

