-- ==== Sys2Proof/Decode.lean ====
section
/-! DEFINITION. The decoder, total on all 256 bytes, and the encoder (30_encoding.md R100 to R104). -/

namespace Sys2Proof

/-- Why a byte is not a command (30_encoding.md R103). Raised by `decode`; the machine turns it into the completion
code `ILLEGAL_CMD`, so it is no stop. -/
inductive DecodeReject where
  /-- `RSV` is not `0000`. -/
  | reservedBits
  /-- `RSV` is `0000` and `OP` is in `0x6..0xF`. -/
  | reservedOpcode
  deriving DecidableEq, Repr

/-- The fields of a byte: `RSV` in bits 7:4, `OP` in bits 3:0 (30_encoding.md R100). -/
def cmdFields (v : Byte) : CmdFields :=
  { rsv := v.extractLsb' 4 4, op := v.extractLsb' 0 4 }

/-- The opcode map, from opcode to command (30_encoding.md R102). -/
def instrOfOpcode (op : Nat) : Option Instr :=
  match op with
  | 0 => some .nop
  | 1 => some .pad
  | 2 => some .unpad
  | 3 => some .enc
  | 4 => some .dec
  | 5 => some .zeroize
  | _ => none

/-- The command a byte stands for, or why there is none (30_encoding.md R102, R103). -/
def decode (v : Byte) : Except DecodeReject Instr :=
  if (cmdFields v).rsvZero then
    match instrOfOpcode (cmdFields v).op.toNat with
    | some i => .ok i
    | none => .error .reservedOpcode
  else .error .reservedBits

/-- The opcode map, from command to opcode (30_encoding.md R102). -/
def opcode (i : Instr) : Nibble :=
  match i with
  | .nop => 0x0
  | .pad => 0x1
  | .unpad => 0x2
  | .enc => 0x3
  | .dec => 0x4
  | .zeroize => 0x5

/-- The fields of a command: `RSV` = 0000 and its opcode (30_encoding.md R100, R102). -/
def Instr.fields (i : Instr) : CmdFields := { rsv := 0x0, op := opcode i }

/-- The byte with the given fields: `RSV` above `OP` (30_encoding.md R100). -/
def CmdFields.byte (f : CmdFields) : Byte := f.rsv ++ f.op

/-- The byte the host writes to `CMD` to issue a command (30_encoding.md R100, R102). -/
def encode (i : Instr) : Byte := i.fields.byte

/-- The byte of a table word of `nbits` bits, if the word is no wider than a command
(30_encoding.md R100: a decoder always sees exactly one byte). -/
def tableByte (nbits w : Nat) : Option Byte :=
  if w % 2 ^ nbits < 256 then some (BitVec.ofNat 8 (w % 2 ^ nbits)) else none

/-- What the decoder reads from a word of spec/opcode_table.json; the bits above `nbits` are 0. -/
def decodeTableWord (nbits w : Nat) : Option Instr :=
  match tableByte nbits w with
  | some v => (decode v).toOption
  | none => none

end Sys2Proof
end

