-- ==== Sys2Proof/Config.lean ====
section
/-! DEFINITION. The fixed parameters of the block (00_scope.md R6) and the values the spec leaves open, as
constants without a body: nothing can be proved about which value they have. -/

namespace Sys2Proof.Config

/-- `BLOCK`: the AES and padding block size in bytes (00_scope.md R6). -/
abbrev blockSize : Nat := 16

/-- `BUFCAP`: the working buffer's capacity in bytes (00_scope.md R6). -/
abbrev bufCap : Nat := 64

/-- `MAXMSG`: the largest message length `PAD` accepts (00_scope.md R6). -/
abbrev maxMsg : Nat := 63

/-- `IV_CONST`, the build-time parameter whose value the spec does not give (00_scope.md R7, D4).
DESIGN CHOICE, log 5 (safe): it is the reset value of the State field `ivConst`, and claims quantify over that field. -/
opaque ivConst : Block

/-- `any_byte()`: the free byte of the `n`-th draw (00_scope.md R13, 20_memory.md R81).
DESIGN CHOICE, log 6 (safe): free values come from this constant without a body, applied to the counter `draws`. -/
opaque anyByte : Nat → Byte

/-- The free value that `FSM.nblk` takes when a command does not use it (30_encoding.md R107, U8).
DESIGN CHOICE, log 7 (safe): a constant without a body, applied to the counter `draws`. -/
opaque anyNblk : Nat → Nat

end Sys2Proof.Config
end

