-- ==== Sys2Proof/Machine/State.lean ====
section
/-! DEFINITION. The state of the block (10_state.md R30 to R48), the reasons a step can stop, and the state
after reset. -/

namespace Sys2Proof.Machine

/-- The working buffer `BUF` as cells (address, byte): addresses strictly rising, no entry equal to what an
unlisted address reads as (`Memory.wf`, Machine/Ops.lean; log 14). -/
abbrev Memory := List Host.Cell

/-- `FSM.mode` (10_state.md R41). -/
inductive Mode where
  | idle
  | busy
  deriving DecidableEq, Repr

/-- `FSM.op`: the command in progress (10_state.md R41). -/
inductive Op where
  | pad
  | unpad
  | enc
  | dec
  | zeroize
  deriving DecidableEq, Repr

/-- `FSM.phase`: what the next core step performs (10_state.md R41). -/
inductive Phase where
  /-- `P_RUN`: the single step of `PAD`, `UNPAD` and `ZEROIZE`. -/
  | run
  /-- `P_KEXP`: the key-expansion step of `ENC` and `DEC`. -/
  | kexp
  /-- `P_BLK`: a block step of `ENC` and `DEC`. -/
  | blk
  deriving DecidableEq, Repr

/-- The hidden state machine `FSM` (10_state.md R41). `j` and `nblk` are counts, so they are natural numbers;
that they stay in R41's ranges while busy is part of the invariant (Safety.lean; log 10). -/
structure Fsm where
  mode  : Mode
  op    : Op
  phase : Phase
  j     : Nat
  nblk  : Nat
  deriving DecidableEq, Repr

/-- The completion codes of 60_exceptions.md R251, by name. -/
inductive ErrCode where
  | none
  | paddingError
  | messageTooLarge
  | invalidInput
  | illegalCmd
  /-- Reserved, never set (60_exceptions.md R259). -/
  | cryptoInitError
  deriving DecidableEq, Repr

/-- Why a step stops with a fault. The block itself never faults (60_exceptions.md R250): both constructors are
raised only in states that no run from reset reaches (log 9), and both are safe. -/
inductive Fault where
  /-- Raised by `coreStep` when a busy state machine stands at an (op, phase) pair for which no rule of the spec
  gives a core step. Safe: the model stops where the spec says nothing; no run reaches it. -/
  | noCoreStep
  /-- Raised by the core steps of `PAD`, `UNPAD`, `ENC` and `DEC` when an access would leave `BUF[0..64)`, an address
  that does not exist (20_memory.md R78: accesses are always in bounds). Safe: no run reaches it. -/
  | outOfBuffer
  deriving DecidableEq, Repr

/-- Why a step is refused. -/
inductive Refusal where
  /-- Raised only by an arm of `exec` that has no meaning yet; every arm has one, so nothing raises it. Safe. -/
  | notModelled (mnemonic : String)
  deriving DecidableEq, Repr

/-- The state of the block: 10_state.md R30, then the model's own fields. `STATUS`, `irq` and the bits `BUSY` and `ERR`
have no storage (10_state.md R37, R39, R46): they are computed in Machine/Flags.lean. `CMD` holds nothing (R43). -/
structure State where
  /-- `BUF[0..63]`, the working buffer (10_state.md R31). -/
  buf : Memory
  /-- `KEY[0..15]`, write-only for the host (10_state.md R32). -/
  key : Block
  /-- `MLEN`, the message length (10_state.md R33). -/
  mlen : Byte
  /-- `PLEN`, the padded or cipher length (10_state.md R34). -/
  plen : Byte
  /-- `CTRL`: bit 0 `STRICT`, bit 1 `IE` (10_state.md R35). -/
  ctrl : Byte
  /-- `STATUS.DONE` (10_state.md R38). -/
  done : Bool
  /-- `STATUS.WBUSY` (10_state.md R40). -/
  wbusy : Bool
  /-- `ERRCODE` (10_state.md R42). -/
  errcode : Byte
  /-- `FSM`, hidden (10_state.md R41). -/
  fsm : Fsm
  /-- `CV`, the CBC chaining value, hidden (10_state.md R44). -/
  cv : Block
  /-- `RK[0..10]`, the round keys, hidden (10_state.md R45). -/
  rk : RoundKeys
  /-- The model's own: the parameter `IV_CONST` (00_scope.md R7); no step changes it (log 5). -/
  ivConst : Block
  /-- The model's own: the events still to come, first one first (log 1). -/
  inputs : List Event
  /-- The model's own: the `rdata` port (20_memory.md R70): the byte the step just taken returned to the host, if it
  was a host read (log 4). -/
  rdata : Option Byte
  /-- The model's own: how many free values have been drawn (log 6). -/
  draws : Nat
  deriving DecidableEq, Repr

/-- 16 bytes `0x00`. -/
abbrev zeroBlock : Block := #v[0, 0, 0, 0, 0, 0, 0, 0, 0, 0, 0, 0, 0, 0, 0, 0]

/-- 11 all-zero round keys. -/
abbrev zeroKeys : RoundKeys :=
  #v[zeroBlock, zeroBlock, zeroBlock, zeroBlock, zeroBlock, zeroBlock, zeroBlock, zeroBlock, zeroBlock, zeroBlock,
    zeroBlock]

/-- The block right after reset (10_state.md R48, 70_reset_and_hazards.md R280, R281). The spec leaves `FSM.op`, `phase`, `j`,
`nblk`, `CV` and `RK` unspecified: DESIGN CHOICE, log 8 (unsafe). The last four fields are the model's own. -/
def State.reset : State where
  buf := []
  key := zeroBlock
  mlen := 0x00
  plen := 0x00
  ctrl := 0x00
  done := false
  wbusy := false
  errcode := 0x00
  fsm := { mode := .idle, op := .pad, phase := .run, j := 0, nblk := 0 }
  cv := zeroBlock
  rk := zeroKeys
  ivConst := Config.ivConst
  inputs := []
  rdata := none
  draws := 0

end Sys2Proof.Machine
end

