-- ==== Sys2Proof/Machine/Flags.lean ====
section
/-! DEFINITION. The bits of `STATUS` and `CTRL`, the completion codes as bytes, and the interrupt output. -/

namespace Sys2Proof.Machine

/-- The byte a completion code puts into `ERRCODE` (60_exceptions.md R251). -/
def ErrCode.code (c : ErrCode) : Byte :=
  match c with
  | .none => 0x00
  | .paddingError => 0x01
  | .messageTooLarge => 0x02
  | .invalidInput => 0x03
  | .illegalCmd => 0x04
  | .cryptoInitError => 0x05

/-- `STATUS.BUSY` is 1 exactly when `FSM.mode = BUSY` (10_state.md R37). -/
def State.busy (s : State) : Bool := s.fsm.mode == .busy

/-- `STATUS.ERR` is a copy of `ERRCODE != 0` (10_state.md R39). -/
def State.err (s : State) : Bool := s.errcode != 0

/-- `CTRL.STRICT`, bit 0 (10_state.md R35). -/
def State.strict (s : State) : Bool := s.ctrl.getLsbD 0

/-- `CTRL.IE`, bit 1 (10_state.md R35). -/
def State.ie (s : State) : Bool := s.ctrl.getLsbD 1

/-- One bit of a byte. -/
def bitAt (k : Nat) (b : Bool) : Byte := if b then 1#8 <<< k else 0

/-- `STATUS` as the host reads it: bits 7:4 are 0, then `WBUSY`, `ERR`, `DONE`, `BUSY` (10_state.md R36, 20_memory.md R73). -/
def State.status (s : State) : Byte :=
  bitAt 3 s.wbusy ||| bitAt 2 s.err ||| bitAt 1 s.done ||| bitAt 0 s.busy

/-- The bits of `CTRL` that exist: bits 1:0 (10_state.md R35). -/
def ctrlMask : Byte := 0x03

/-- `CTRL` as the host reads it: bits 7:2 read as 0 (10_state.md R35, 20_memory.md R73). -/
def State.ctrlRead (s : State) : Byte := s.ctrl &&& ctrlMask

/-- The interrupt output: `irq = CTRL.IE AND STATUS.DONE` (10_state.md R46). -/
def State.irq (s : State) : Bool := s.ie && s.done

/-- The effect of a host write of `v` to `STATUS`: a 1 in bit 1 clears `DONE`, a 1 in bit 3 clears `WBUSY`, and nothing
else happens (10_state.md R36, 20_memory.md R74). -/
def clearStatus (v : Byte) (s : State) : State :=
  { s with done := s.done && !v.getLsbD 1, wbusy := s.wbusy && !v.getLsbD 3 }

/-- A write that the busy block drops: only `WBUSY` is set (20_memory.md R82). -/
def dropWrite (s : State) : State := { s with wbusy := true }

end Sys2Proof.Machine
end

