-- ==== Sys2Proof/Machine/Ops.lean ====
section
/-! DEFINITION. The shared operations: the working buffer, completion, issue and start, reset. -/

namespace Sys2Proof.Machine

/-! ### The working buffer -/

/-- What a byte of `BUF` that no cell lists reads as: its reset value (10_state.md R31, R48). -/
def unlisted : Byte := 0x00

/-- One byte of the buffer. -/
def readByte (m : Memory) (a : Nat) : Byte :=
  match m with
  | [] => unlisted
  | (k, b) :: rest => if k = a then b else readByte rest a

/-- The cells of `m` but those at address `a`. -/
def eraseCell (m : Memory) (a : Nat) : Memory :=
  match m with
  | [] => []
  | (k, b) :: rest => if k = a then eraseCell rest a else (k, b) :: eraseCell rest a

/-- The cells of `m` with a cell for address `a` put before the first higher address. -/
def insertCell (m : Memory) (a : Nat) (v : Byte) : Memory :=
  match m with
  | [] => [(a, v)]
  | (k, b) :: rest => if a < k then (a, v) :: (k, b) :: rest else (k, b) :: insertCell rest a v

/-- Store one byte. Storing what an unlisted address reads as leaves the address unlisted, so that equal
memories are equal lists. -/
def writeByte (m : Memory) (a : Nat) (v : Byte) : Memory :=
  if v = unlisted then eraseCell m a else insertCell (eraseCell m a) a v

/-- The cells are strictly rising from address `lo` on, lie inside `BUF[0..64)`, and none holds what an unlisted
address reads as. -/
def Memory.wfFrom (lo : Nat) (m : Memory) : Bool :=
  match m with
  | [] => true
  | (k, b) :: rest =>
    decide (lo ≤ k) && decide (k < Config.bufCap) && (b != unlisted) && Memory.wfFrom (k + 1) rest

/-- The canonical form of the buffer. -/
def Memory.wf (m : Memory) : Bool := Memory.wfFrom 0 m

/-- `MemRead(i, n)` = `BUF[i .. i+n)` (00_scope.md R13). -/
def memRead (m : Memory) (i n : Nat) : List Byte := (List.range n).map fun k => readByte m (i + k)

/-- `MemWrite(i, n, S)`: `BUF[i .. i+n) <- S`, with `n = len(S)` (00_scope.md R13). -/
def memWrite (m : Memory) (i : Nat) (bytes : List Byte) : Memory :=
  match bytes with
  | [] => m
  | b :: rest => memWrite (writeByte m i b) (i + 1) rest

/-- The bound every core access meets: `i + n <= 64` (20_memory.md R78). -/
def withinBuffer (i n : Nat) : Bool := decide (i + n ≤ Config.bufCap)

/-! ### Completion, issue, start -/

/-- `complete(code)` (60_exceptions.md R252). It stands where taking an exception would stand (00_scope.md R13). -/
def complete (c : ErrCode) (s : State) : State :=
  { s with errcode := c.code, fsm := { s.fsm with mode := .idle }, done := true }

/-- The first two lines of `Issue(v)`: `DONE` and `ERRCODE` are cleared (30_encoding.md R106). -/
def beginIssue (s : State) : State := { s with done := false, errcode := 0x00 }

/-- `start(op, phase, n)` (30_encoding.md R107). -/
def start (op : Op) (ph : Phase) (n : Nat) (s : State) : State :=
  { s with fsm := { mode := .busy, op := op, phase := ph, j := 0, nblk := n } }

/-- `start(op, P_RUN, -)`: `FSM.nblk` takes any value (30_encoding.md R107, U8), here the next free value (log 7). -/
def startRun (op : Op) (s : State) : State :=
  { start op .run (Config.anyNblk s.draws) s with draws := s.draws + 1 }

/-- A host write that takes effect only while the block is not busy; while busy it is dropped (20_memory.md R74, R82). -/
def whenIdle (act : State → State) (s : State) : State := if s.busy then dropWrite s else act s

/-- A host write to `CMD` (20_memory.md R74, 30_encoding.md R106): dropped while busy; otherwise `DONE` and `ERRCODE` are
cleared and the command's accept routine runs, all in one host step. DEDUCED, log 12 (safe): `exec` is this whole
effect, the busy check included. -/
def issueWith (accept : State → State) (s : State) : State := whenIdle (fun t => accept (beginIssue t)) s

/-! ### Reset -/

/-- `Reset()` (70_reset_and_hazards.md R280): every piece of the block's state takes its reset value. The parameter
`IV_CONST`, the events still to come and the count of draws are not the block's state and stay (log 5, 6, 15). -/
def applyReset (s : State) : State :=
  { State.reset with ivConst := s.ivConst, inputs := s.inputs, draws := s.draws }

end Sys2Proof.Machine
end

