-- ==== Sys2Proof/Machine/Operands.lean ====
section
/-! DEFINITION. The implicit operands of the commands (30_encoding.md R101): lengths, padding, blocks of the buffer,
and the target an address names on the bus (20_memory.md R71). -/

namespace Sys2Proof.Machine

/-! ### Addresses -/

/-- The register map (20_memory.md R71, R72). -/
def addrTarget (a : Byte) : Target :=
  if hb : a.toNat < 0x40 then .buf ⟨a.toNat, hb⟩
  else if hk : a.toNat < 0x50 then .key ⟨a.toNat - 0x40, by omega⟩
  else if a = 0x50 then .cmd
  else if a = 0x51 then .status
  else if a = 0x52 then .errcode
  else if a = 0x53 then .ctrl
  else if a = 0x54 then .mlen
  else if a = 0x55 then .plen
  else .unmapped

/-! ### Lengths -/

/-- `padLen(m) = (floor(m / 16) + 1) * 16` (40_padder.md R130). -/
def padLen (m : Nat) : Nat := (m / Config.blockSize + 1) * Config.blockSize

/-- `p(m) = 16 - (m mod 16)` (40_padder.md R130). -/
def padValue (m : Nat) : Nat := Config.blockSize - m % Config.blockSize

/-- The bytes `rep(n, b)` (00_scope.md R12). -/
def rep (n : Nat) (b : Byte) : List Byte := List.replicate n b

/-- `PLEN in {16, 32, 48, 64}`: a positive multiple of 16 that fits `BUF` (42_cbc_engine.md R202, R204). -/
def cipherLen (plen : Byte) : Bool := plen == 16 || plen == 32 || plen == 48 || plen == 64

/-- `PLEN / 16` (42_cbc_engine.md R202, R204). -/
def blockCount (plen : Byte) : Nat := plen.toNat / Config.blockSize

/-! ### 16-byte sequences -/

/-- The 16-byte sequence with byte `f k` at index `k`. -/
def blockOf (f : Fin 16 → Byte) : Block :=
  #v[f 0, f 1, f 2, f 3, f 4, f 5, f 6, f 7, f 8, f 9, f 10, f 11, f 12, f 13, f 14, f 15]

/-- Exclusive-or of two 16-byte sequences, byte by byte (00_scope.md R11). -/
def xorBlock (a b : Block) : Block := blockOf fun k => a[k] ^^^ b[k]

/-- `BLK(j) = BUF[16*j .. 16*j + 16)`: byte `BUF[16*j + k]` is byte `k` of the block (20_memory.md R77, 00_scope.md R12). -/
def readBlock (m : Memory) (j : Nat) : Block := blockOf fun k => readByte m (Config.blockSize * j + k.val)

/-- `MemWrite(16*j, 16, B)` (42_cbc_engine.md R203, R205). -/
def writeBlock (m : Memory) (j : Nat) (b : Block) : Memory := memWrite m (Config.blockSize * j) b.toList

/-- The first `n` blocks of the buffer, `BUF[0 .. 16*n)` as blocks. -/
def readBlocks (m : Memory) (n : Nat) : List Block := (List.range n).map (readBlock m)

end Sys2Proof.Machine
end

