-- ==== Sys2Proof/Machine/Aes.lean ====
section
/-! DEFINITION. The AES-128 core (41_aes128_core.md R160 to R177): the field, the S-boxes, the transformations, key
expansion, the cipher and the inverse cipher. All functions are total. -/

namespace Sys2Proof.Machine

/-! ### The field GF(2^8) (R161) -/

/-- `xtime(a)`: multiplication by `0x02` (R161). -/
def xtime (a : Byte) : Byte := (a <<< 1) ^^^ (if a.getLsbD 7 then 0x1B else 0x00)

/-- The exclusive-or of `xtime^k(a)` over the bits `k < n` of `b` that are 1. -/
def gfMulBits (n : Nat) (a b : Byte) : Byte :=
  match n with
  | 0 => 0x00
  | m + 1 => (if b.getLsbD 0 then a else 0x00) ^^^ gfMulBits m (xtime a) (b >>> 1)

/-- `a • b`: the exclusive-or of `xtime^k(a)` over every bit `k` with `b[k] = 1` (R161). -/
def gfMul (a b : Byte) : Byte := gfMulBits 8 a b

/-- `a` to the power `n` in the field. -/
def gfPow (a : Byte) (n : Nat) : Byte :=
  match n with
  | 0 => 0x01
  | m + 1 => gfMul a (gfPow a m)

/-- `inv(a)`, the multiplicative inverse, with `inv(0x00) = 0x00` (R161). DEDUCED, log 16 (safe): computed as `a^254`,
since the field has 255 nonzero elements. -/
def gfInv (a : Byte) : Byte := gfPow a 254

/-! ### S-boxes (R162, R168) -/

/-- The entry for `a` of a table laid out with the high nibble as the row and the low nibble as the column (R162). -/
def tableAt (rows : List (List Byte)) (a : Byte) : Byte :=
  (rows.getD (a.toNat / 16) []).getD (a.toNat % 16) 0x00

/-- The table of R162. -/
def sboxRows : List (List Byte) :=
  [[0x63, 0x7C, 0x77, 0x7B, 0xF2, 0x6B, 0x6F, 0xC5, 0x30, 0x01, 0x67, 0x2B, 0xFE, 0xD7, 0xAB, 0x76],
   [0xCA, 0x82, 0xC9, 0x7D, 0xFA, 0x59, 0x47, 0xF0, 0xAD, 0xD4, 0xA2, 0xAF, 0x9C, 0xA4, 0x72, 0xC0],
   [0xB7, 0xFD, 0x93, 0x26, 0x36, 0x3F, 0xF7, 0xCC, 0x34, 0xA5, 0xE5, 0xF1, 0x71, 0xD8, 0x31, 0x15],
   [0x04, 0xC7, 0x23, 0xC3, 0x18, 0x96, 0x05, 0x9A, 0x07, 0x12, 0x80, 0xE2, 0xEB, 0x27, 0xB2, 0x75],
   [0x09, 0x83, 0x2C, 0x1A, 0x1B, 0x6E, 0x5A, 0xA0, 0x52, 0x3B, 0xD6, 0xB3, 0x29, 0xE3, 0x2F, 0x84],
   [0x53, 0xD1, 0x00, 0xED, 0x20, 0xFC, 0xB1, 0x5B, 0x6A, 0xCB, 0xBE, 0x39, 0x4A, 0x4C, 0x58, 0xCF],
   [0xD0, 0xEF, 0xAA, 0xFB, 0x43, 0x4D, 0x33, 0x85, 0x45, 0xF9, 0x02, 0x7F, 0x50, 0x3C, 0x9F, 0xA8],
   [0x51, 0xA3, 0x40, 0x8F, 0x92, 0x9D, 0x38, 0xF5, 0xBC, 0xB6, 0xDA, 0x21, 0x10, 0xFF, 0xF3, 0xD2]] ++
  [[0xCD, 0x0C, 0x13, 0xEC, 0x5F, 0x97, 0x44, 0x17, 0xC4, 0xA7, 0x7E, 0x3D, 0x64, 0x5D, 0x19, 0x73],
   [0x60, 0x81, 0x4F, 0xDC, 0x22, 0x2A, 0x90, 0x88, 0x46, 0xEE, 0xB8, 0x14, 0xDE, 0x5E, 0x0B, 0xDB],
   [0xE0, 0x32, 0x3A, 0x0A, 0x49, 0x06, 0x24, 0x5C, 0xC2, 0xD3, 0xAC, 0x62, 0x91, 0x95, 0xE4, 0x79],
   [0xE7, 0xC8, 0x37, 0x6D, 0x8D, 0xD5, 0x4E, 0xA9, 0x6C, 0x56, 0xF4, 0xEA, 0x65, 0x7A, 0xAE, 0x08],
   [0xBA, 0x78, 0x25, 0x2E, 0x1C, 0xA6, 0xB4, 0xC6, 0xE8, 0xDD, 0x74, 0x1F, 0x4B, 0xBD, 0x8B, 0x8A],
   [0x70, 0x3E, 0xB5, 0x66, 0x48, 0x03, 0xF6, 0x0E, 0x61, 0x35, 0x57, 0xB9, 0x86, 0xC1, 0x1D, 0x9E],
   [0xE1, 0xF8, 0x98, 0x11, 0x69, 0xD9, 0x8E, 0x94, 0x9B, 0x1E, 0x87, 0xE9, 0xCE, 0x55, 0x28, 0xDF],
   [0x8C, 0xA1, 0x89, 0x0D, 0xBF, 0xE6, 0x42, 0x68, 0x41, 0x99, 0x2D, 0x0F, 0xB0, 0x54, 0xBB, 0x16]]

/-- The table of R168. -/
def invSboxRows : List (List Byte) :=
  [[0x52, 0x09, 0x6A, 0xD5, 0x30, 0x36, 0xA5, 0x38, 0xBF, 0x40, 0xA3, 0x9E, 0x81, 0xF3, 0xD7, 0xFB],
   [0x7C, 0xE3, 0x39, 0x82, 0x9B, 0x2F, 0xFF, 0x87, 0x34, 0x8E, 0x43, 0x44, 0xC4, 0xDE, 0xE9, 0xCB],
   [0x54, 0x7B, 0x94, 0x32, 0xA6, 0xC2, 0x23, 0x3D, 0xEE, 0x4C, 0x95, 0x0B, 0x42, 0xFA, 0xC3, 0x4E],
   [0x08, 0x2E, 0xA1, 0x66, 0x28, 0xD9, 0x24, 0xB2, 0x76, 0x5B, 0xA2, 0x49, 0x6D, 0x8B, 0xD1, 0x25],
   [0x72, 0xF8, 0xF6, 0x64, 0x86, 0x68, 0x98, 0x16, 0xD4, 0xA4, 0x5C, 0xCC, 0x5D, 0x65, 0xB6, 0x92],
   [0x6C, 0x70, 0x48, 0x50, 0xFD, 0xED, 0xB9, 0xDA, 0x5E, 0x15, 0x46, 0x57, 0xA7, 0x8D, 0x9D, 0x84],
   [0x90, 0xD8, 0xAB, 0x00, 0x8C, 0xBC, 0xD3, 0x0A, 0xF7, 0xE4, 0x58, 0x05, 0xB8, 0xB3, 0x45, 0x06],
   [0xD0, 0x2C, 0x1E, 0x8F, 0xCA, 0x3F, 0x0F, 0x02, 0xC1, 0xAF, 0xBD, 0x03, 0x01, 0x13, 0x8A, 0x6B]] ++
  [[0x3A, 0x91, 0x11, 0x41, 0x4F, 0x67, 0xDC, 0xEA, 0x97, 0xF2, 0xCF, 0xCE, 0xF0, 0xB4, 0xE6, 0x73],
   [0x96, 0xAC, 0x74, 0x22, 0xE7, 0xAD, 0x35, 0x85, 0xE2, 0xF9, 0x37, 0xE8, 0x1C, 0x75, 0xDF, 0x6E],
   [0x47, 0xF1, 0x1A, 0x71, 0x1D, 0x29, 0xC5, 0x89, 0x6F, 0xB7, 0x62, 0x0E, 0xAA, 0x18, 0xBE, 0x1B],
   [0xFC, 0x56, 0x3E, 0x4B, 0xC6, 0xD2, 0x79, 0x20, 0x9A, 0xDB, 0xC0, 0xFE, 0x78, 0xCD, 0x5A, 0xF4],
   [0x1F, 0xDD, 0xA8, 0x33, 0x88, 0x07, 0xC7, 0x31, 0xB1, 0x12, 0x10, 0x59, 0x27, 0x80, 0xEC, 0x5F],
   [0x60, 0x51, 0x7F, 0xA9, 0x19, 0xB5, 0x4A, 0x0D, 0x2D, 0xE5, 0x7A, 0x9F, 0x93, 0xC9, 0x9C, 0xEF],
   [0xA0, 0xE0, 0x3B, 0x4D, 0xAE, 0x2A, 0xF5, 0xB0, 0xC8, 0xEB, 0xBB, 0x3C, 0x83, 0x53, 0x99, 0x61],
   [0x17, 0x2B, 0x04, 0x7E, 0xBA, 0x77, 0xD6, 0x26, 0xE1, 0x69, 0x14, 0x63, 0x55, 0x21, 0x0C, 0x7D]]

/-- `SBOX` (R162). -/
def sbox (a : Byte) : Byte := tableAt sboxRows a

/-- `INV_SBOX` (R168). -/
def invSbox (a : Byte) : Byte := tableAt invSboxRows a

/-! ### The AES state (R163)

The state is held as the flat 16-byte sequence: `s[r][c]` is byte `r + 4*c`, so load and store are the identity. -/

/-- `s[r][c]` (R163). -/
def cell (s : Block) (r c : Fin 4) : Byte := s[r.val + 4 * c.val]

/-- The state with `s[r][c] = f r c` (R163). -/
def ofCells (f : Fin 4 → Fin 4 → Byte) : Block :=
  #v[f 0 0, f 1 0, f 2 0, f 3 0, f 0 1, f 1 1, f 2 1, f 3 1, f 0 2, f 1 2, f 2 2, f 3 2, f 0 3, f 1 3, f 2 3, f 3 3]

/-! ### Transformations (R164 to R171). Sums and differences of rows and columns are modulo 4. -/

/-- `SubBytes` (R164). -/
def subBytes (s : Block) : Block := ofCells fun r c => sbox (cell s r c)

/-- `ShiftRows`: `s'[r][c] = s[r][(c + r) mod 4]` (R165). -/
def shiftRows (s : Block) : Block := ofCells fun r c => cell s r (c + r)

/-- The column `(m0•a0) ⊕ (m1•a1) ⊕ (m2•a2) ⊕ (m3•a3)` of R166 and R171, for row `r` of column `c`. -/
def mixRow (m0 m1 m2 m3 : Byte) (s : Block) (c : Fin 4) : Byte :=
  gfMul m0 (cell s 0 c) ^^^ gfMul m1 (cell s 1 c) ^^^ gfMul m2 (cell s 2 c) ^^^ gfMul m3 (cell s 3 c)

/-- `MixColumns` (R166). -/
def mixColumns (s : Block) : Block :=
  ofCells fun r c =>
    match r with
    | 0 => mixRow 0x02 0x03 0x01 0x01 s c
    | 1 => mixRow 0x01 0x02 0x03 0x01 s c
    | 2 => mixRow 0x01 0x01 0x02 0x03 s c
    | 3 => mixRow 0x03 0x01 0x01 0x02 s c

/-- `AddRoundKey` (R167). -/
def addRoundKey (s k : Block) : Block := xorBlock s k

/-- `InvShiftRows`: `s'[r][c] = s[r][(c - r) mod 4]` (R169). -/
def invShiftRows (s : Block) : Block := ofCells fun r c => cell s r (c - r)

/-- `InvSubBytes` (R170). -/
def invSubBytes (s : Block) : Block := ofCells fun r c => invSbox (cell s r c)

/-- `InvMixColumns` (R171). -/
def invMixColumns (s : Block) : Block :=
  ofCells fun r c =>
    match r with
    | 0 => mixRow 0x0E 0x0B 0x0D 0x09 s c
    | 1 => mixRow 0x09 0x0E 0x0B 0x0D s c
    | 2 => mixRow 0x0D 0x09 0x0E 0x0B s c
    | 3 => mixRow 0x0B 0x0D 0x09 0x0E s c

/-! ### Key expansion (R172 to R174) -/

/-- `RotWord` (R172). -/
def rotWord (w : KeyWord) : KeyWord := #v[w[1], w[2], w[3], w[0]]

/-- `SubWord` (R172). -/
def subWord (w : KeyWord) : KeyWord := #v[sbox w[0], sbox w[1], sbox w[2], sbox w[3]]

/-- Word XOR, byte-wise (R172). -/
def xorWord (a b : KeyWord) : KeyWord := #v[a[0] ^^^ b[0], a[1] ^^^ b[1], a[2] ^^^ b[2], a[3] ^^^ b[3]]

/-- `xtime^k(0x01)`. -/
def xtimePow (k : Nat) : Byte :=
  match k with
  | 0 => 0x01
  | n + 1 => xtime (xtimePow n)

/-- `Rcon[i] = [rc_i, 00, 00, 00]` with `rc_i = xtime^(i-1)(0x01)` (R172). -/
def rcon (i : Nat) : KeyWord := #v[xtimePow (i - 1), 0x00, 0x00, 0x00]

/-- The word `t` of R173's loop at index `i`, from `w[i-1]`. -/
def keyTemp (i : Nat) (prev : KeyWord) : KeyWord :=
  if i % 4 = 0 then xorWord (subWord (rotWord prev)) (rcon (i / 4)) else prev

/-- Four words `w[i-4], w[i-3], w[i-2], w[i-1]` of the schedule and the `n` words from `w[i]` on: the loop of R173,
`w[i] <- w[i-4] ⊕ t`. -/
def expandFrom (n i : Nat) (w4 w3 w2 w1 : KeyWord) : List KeyWord :=
  match n with
  | 0 => []
  | m + 1 =>
    let w := xorWord w4 (keyTemp i w1)
    w :: expandFrom m (i + 1) w3 w2 w1 w

/-- `w[i] = [KEY[4i], KEY[4i+1], KEY[4i+2], KEY[4i+3]]` for `i` in `0..3` (R173). -/
def keyWord (key : Block) (i : Fin 4) : KeyWord := #v[cell key 0 i, cell key 1 i, cell key 2 i, cell key 3 i]

/-- The 44 words `w[0..43]` of `KeyExpansion(KEY)` (R173). -/
def keyWords (key : Block) : List KeyWord :=
  keyWord key 0 :: keyWord key 1 :: keyWord key 2 :: keyWord key 3 ::
    expandFrom 40 4 (keyWord key 0) (keyWord key 1) (keyWord key 2) (keyWord key 3)

/-- `RK[i]`: byte `r + 4c` is byte `r` of word `w[4i + c]` (R174). -/
def roundKeyOf (ws : List KeyWord) (i : Nat) : Block :=
  ofCells fun r c => (ws.getD (4 * i + c.val) #v[0, 0, 0, 0])[r]

/-- `KeyExpansion(KEY) -> RK[0..10]` (R173, R174). -/
@[irreducible] def keyExpansion (key : Block) : RoundKeys :=
  let ws := keyWords key
  #v[roundKeyOf ws 0, roundKeyOf ws 1, roundKeyOf ws 2, roundKeyOf ws 3, roundKeyOf ws 4, roundKeyOf ws 5,
    roundKeyOf ws 6, roundKeyOf ws 7, roundKeyOf ws 8, roundKeyOf ws 9, roundKeyOf ws 10]

/-! ### The rounds, the cipher and the inverse cipher (R175 to R177) -/

/-- `Round(s, K)` (R175). -/
def aesRound (s k : Block) : Block := addRoundKey (mixColumns (shiftRows (subBytes s))) k

/-- `FinalRound(s, K)` (R175). -/
def aesFinalRound (s k : Block) : Block := addRoundKey (shiftRows (subBytes s)) k

/-- `InvRound(s, K)` (R175). -/
def aesInvRound (s k : Block) : Block := invMixColumns (addRoundKey (invSubBytes (invShiftRows s)) k)

/-- `InvFinalRound(s, K)` (R175). -/
def aesInvFinalRound (s k : Block) : Block := addRoundKey (invSubBytes (invShiftRows s)) k

/-- `AES_Encrypt(RK, in)` (R176). -/
@[irreducible] def aesEncrypt (rk : RoundKeys) (input : Block) : Block :=
  let s := ([1, 2, 3, 4, 5, 6, 7, 8, 9] : List (Fin 11)).foldl (fun s r => aesRound s rk[r]) (addRoundKey input rk[0])
  aesFinalRound s rk[10]

/-- `AES_Decrypt(RK, in)` (R177). -/
@[irreducible] def aesDecrypt (rk : RoundKeys) (input : Block) : Block :=
  let s := ([9, 8, 7, 6, 5, 4, 3, 2, 1] : List (Fin 11)).foldl (fun s r => aesInvRound s rk[r]) (addRoundKey input rk[10])
  aesInvFinalRound s rk[0]

end Sys2Proof.Machine
end

