-- ==== Sys2Proof/Machine/Cbc.lean ====
section
/-! DEFINITION. The CBC functions on a sequence of blocks (42_cbc_engine.md R200, R201). -/

namespace Sys2Proof.Machine

/-- The ciphertext blocks of `P_j, P_{j+1}, ..` after the chaining value `prev = C_{j-1}`: `C_j = AES_Encrypt(RK, P_j ⊕ C_{j-1})`
(42_cbc_engine.md R200). -/
def cbcEncryptFrom (rk : RoundKeys) (prev : Block) (plain : List Block) : List Block :=
  match plain with
  | [] => []
  | p :: rest =>
    let c := aesEncrypt rk (xorBlock p prev)
    c :: cbcEncryptFrom rk c rest

/-- `CBC_Encrypt(K, IV, P)` (42_cbc_engine.md R200). -/
def cbcEncrypt (key iv : Block) (plain : List Block) : List Block := cbcEncryptFrom (keyExpansion key) iv plain

/-- The plaintext blocks of `C_j, C_{j+1}, ..` after the chaining value `prev = C_{j-1}`: `P_j = AES_Decrypt(RK, C_j) ⊕ C_{j-1}`
(42_cbc_engine.md R201). -/
def cbcDecryptFrom (rk : RoundKeys) (prev : Block) (cipher : List Block) : List Block :=
  match cipher with
  | [] => []
  | c :: rest => xorBlock (aesDecrypt rk c) prev :: cbcDecryptFrom rk c rest

/-- `CBC_Decrypt(K, IV, C)` (42_cbc_engine.md R201). -/
def cbcDecrypt (key iv : Block) (cipher : List Block) : List Block := cbcDecryptFrom (keyExpansion key) iv cipher

end Sys2Proof.Machine
end

