-- ==== Sys2Proof/Machine/CbcEngine.lean ====
section
/-! DEFINITION. `ENC` and `DEC` (42_cbc_engine.md R202 to R205): what their issue does and what their core steps do. -/

namespace Sys2Proof.Machine

/-- `ENC_accept()` and `DEC_accept()` share this form (42_cbc_engine.md R202, R204). -/
def cipherAccept (op : Op) (s : State) : State :=
  if cipherLen s.plen then start op .kexp (blockCount s.plen) s else complete .invalidInput s

/-- The key-expansion step of `ENC` and `DEC` (42_cbc_engine.md R203, R205). -/
def keyExpandStep (s : State) : State :=
  { s with rk := keyExpansion s.key, cv := s.ivConst, fsm := { s.fsm with j := 0, phase := .blk } }

/-- The end of a block step: block `j` of the buffer becomes `out`, `CV` becomes `chain`, `j` advances, and the command
completes after the last block (42_cbc_engine.md R203, R205). -/
def finishBlock (out chain : Block) (s : State) : State :=
  let t := { s with buf := writeBlock s.buf s.fsm.j out, cv := chain, fsm := { s.fsm with j := s.fsm.j + 1 } }
  if s.fsm.j + 1 = s.fsm.nblk then complete .none t else t

/-! ### ENC -/

/-- The meaning of `ENC`: its issue (42_cbc_engine.md R202, 30_encoding.md R106). Its core steps are `encStep`. -/
def execEnc (s : State) : Host.Outcome State Fault Refusal := .next (issueWith (cipherAccept .enc) s)

/-- The ciphertext block of the block step: `Y = AES_Encrypt(RK, MemRead(16*j, 16) ⊕ CV)` (42_cbc_engine.md R203). -/
def encBlock (s : State) : Block := aesEncrypt s.rk (xorBlock (readBlock s.buf s.fsm.j) s.cv)

/-- `ENC_step()` (42_cbc_engine.md R203). -/
def encStep (s : State) : Host.Outcome State Fault Refusal :=
  match s.fsm.phase with
  | .run => .fault .noCoreStep
  | .kexp => .next (keyExpandStep s)
  | .blk =>
    if withinBuffer (Config.blockSize * s.fsm.j) Config.blockSize then
      .next (finishBlock (encBlock s) (encBlock s) s)
    else .fault .outOfBuffer

/-! ### DEC -/

/-- The meaning of `DEC`: its issue (42_cbc_engine.md R204, 30_encoding.md R106). Its core steps are `decStep`. -/
def execDec (s : State) : Host.Outcome State Fault Refusal := .next (issueWith (cipherAccept .dec) s)

/-- The plaintext block of the block step: `X = AES_Decrypt(RK, MemRead(16*j, 16)) ⊕ CV` (42_cbc_engine.md R205). -/
def decBlock (s : State) : Block := xorBlock (aesDecrypt s.rk (readBlock s.buf s.fsm.j)) s.cv

/-- `DEC_step()` (42_cbc_engine.md R205). `CV` takes the ciphertext block as it was read. -/
def decStep (s : State) : Host.Outcome State Fault Refusal :=
  match s.fsm.phase with
  | .run => .fault .noCoreStep
  | .kexp => .next (keyExpandStep s)
  | .blk =>
    if withinBuffer (Config.blockSize * s.fsm.j) Config.blockSize then
      .next (finishBlock (decBlock s) (readBlock s.buf s.fsm.j) s)
    else .fault .outOfBuffer

end Sys2Proof.Machine
end

