-- ==== Sys2Proof/Machine/Control.lean ====
section
/-! DEFINITION. `NOP` and `ZEROIZE` (43_control_cmds.md R230, R231), and the issue of an illegal byte
(30_encoding.md R103). -/

namespace Sys2Proof.Machine

/-- The meaning of `NOP`: it completes at once, in the issuing host step (43_control_cmds.md R230). -/
def execNop (s : State) : Host.Outcome State Fault Refusal := .next (issueWith (complete .none) s)

/-- The meaning of `ZEROIZE`: its issue; it is always accepted (43_control_cmds.md R231). Its core step is `zeroizeStep`. -/
def execZeroize (s : State) : Host.Outcome State Fault Refusal := .next (issueWith (startRun .zeroize) s)

/-- `MemWrite(0, 64, rep(64, 0x00))`: the whole buffer is cleared (43_control_cmds.md R231). -/
@[irreducible] def clearBuffer (m : Memory) : Memory := memWrite m 0 (rep Config.bufCap 0x00)

/-- The state `ZEROIZE` leaves before it completes (43_control_cmds.md R231). -/
def zeroized (s : State) : State :=
  { s with
    buf := clearBuffer s.buf, key := zeroBlock, mlen := 0x00, plen := 0x00, cv := zeroBlock,
    rk := zeroKeys }

/-- `ZEROIZE_step()` (43_control_cmds.md R231). -/
def zeroizeStep (s : State) : Host.Outcome State Fault Refusal := .next (complete .none (zeroized s))

/-- The issue of a byte that is no command: `complete(0x04)` (30_encoding.md R103, R106). -/
def issueIllegal (s : State) : Host.Outcome State Fault Refusal := .next (issueWith (complete .illegalCmd) s)

end Sys2Proof.Machine
end

