-- ==== Sys2Proof/Machine/Padder.lean ====
section
/-! DEFINITION. `PAD` and `UNPAD` (40_padder.md R131 to R135): what their issue does and what their core step does. -/

namespace Sys2Proof.Machine

/-! ### PAD -/

/-- `PAD_accept()` (40_padder.md R131). -/
def padAccept (s : State) : State :=
  if 64 ≤ s.mlen.toNat then complete .messageTooLarge s else startRun .pad s

/-- The meaning of `PAD`: its issue (40_padder.md R131, 30_encoding.md R106). Its core step is `padStep`. -/
def execPad (s : State) : Host.Outcome State Fault Refusal := .next (issueWith padAccept s)

/-- The buffer after `PAD` of a message of `m` bytes: `MemWrite(m, p, rep(p, p))` (40_padder.md R132). -/
def padBuffer (b : Memory) (m : Nat) : Memory :=
  memWrite b m (rep (padValue m) (BitVec.ofNat 8 (padValue m)))

/-- `PAD_step()` (40_padder.md R132). -/
def padStep (s : State) : Host.Outcome State Fault Refusal :=
  let m := s.mlen.toNat
  if withinBuffer m (padValue m) then
    .next (complete .none { s with buf := padBuffer s.buf m, plen := BitVec.ofNat 8 (m + padValue m) })
  else .fault .outOfBuffer

/-! ### UNPAD -/

/-- `UNPAD_accept()` (40_padder.md R133). -/
def unpadAccept (s : State) : State :=
  if 64 < s.plen.toNat then complete .invalidInput s else startRun .unpad s

/-- The meaning of `UNPAD`: its issue (40_padder.md R133, 30_encoding.md R106). Its core step is `unpadStep`. -/
def execUnpad (s : State) : Host.Outcome State Fault Refusal := .next (issueWith unpadAccept s)

/-- The pad byte of a padded buffer of length `len`: its last byte (40_padder.md R134). -/
def padByte (len : Nat) (b : Memory) : Byte := readByte b (len - 1)

/-- The strict loop of R134: every byte of `B[L-p .. L)` equals the pad byte. -/
def padBytesEqual (len : Nat) (b : Memory) : Bool :=
  (memRead b (len - (padByte len b).toNat) (padByte len b).toNat).all fun x => x == padByte len b

/-- `padOK(L, B, strict)` (40_padder.md R134). -/
def padOK (len : Nat) (b : Memory) (strict : Bool) : Bool :=
  if len = 0 then false
  else if ¬(1 ≤ (padByte len b).toNat ∧ (padByte len b).toNat ≤ Config.blockSize) then false
  else if ¬(padByte len b).toNat ≤ len then false
  else if strict then padBytesEqual len b
  else true

/-- `UNPAD_step()` (40_padder.md R135). -/
def unpadStep (s : State) : Host.Outcome State Fault Refusal :=
  let len := s.plen.toNat
  if withinBuffer 0 len then
    if padOK len s.buf s.strict then
      .next (complete .none { s with mlen := BitVec.ofNat 8 (len - (padByte len s.buf).toNat) })
    else .next (complete .paddingError s)
  else .fault .outOfBuffer

end Sys2Proof.Machine
end

