-- ==== Sys2Proof/Machine/CoreAgent.lean ====
section
/-! DEFINITION. The core agent: one core step of the busy command (00_scope.md R9). -/

namespace Sys2Proof.Machine

/-- A core step of a command whose only phase is `P_RUN` (10_state.md R41); the spec gives none in another phase. -/
def inRun (step : State → Host.Outcome State Fault Refusal) (s : State) : Host.Outcome State Fault Refusal :=
  if s.fsm.phase = .run then step s else .fault .noCoreStep

/-- The core step of a busy block, by the command in progress (40_padder.md R132, R135; 42_cbc_engine.md R203, R205;
43_control_cmds.md R231). -/
def busyStep (s : State) : Host.Outcome State Fault Refusal :=
  match s.fsm.op with
  | .pad => inRun padStep s
  | .unpad => inRun unpadStep s
  | .enc => encStep s
  | .dec => decStep s
  | .zeroize => inRun zeroizeStep s

/-- The core's turn. A core step is enabled exactly when `STATUS.BUSY = 1` (00_scope.md R9); otherwise nothing happens
(DESIGN CHOICE, log 3, safe). -/
def coreStep (s : State) : Host.Outcome State Fault Refusal := if s.busy then busyStep s else .next s

end Sys2Proof.Machine
end

