-- ==== Sys2Proof/Machine/Bus.lean ====
section
/-! DEFINITION. The host interface: the two bus operations (20_memory.md R73, R74), the issue of a command
(30_encoding.md R106), and what one event does. -/

namespace Sys2Proof.Machine

/-! ### Reads -/

/-- `BusRead(a)` (20_memory.md R73). A `BUF` read while busy is the next free byte (R81; log 6, safe). -/
def busRead (a : Byte) (s : State) : Byte :=
  match addrTarget a with
  | .buf i => if s.busy then Config.anyByte s.draws else readByte s.buf i.val
  | .key _ => 0x00
  | .cmd => 0x00
  | .status => s.status
  | .errcode => s.errcode
  | .ctrl => s.ctrlRead
  | .mlen => s.mlen
  | .plen => s.plen
  | .unmapped => 0x00

/-- How many free bytes a read of `a` draws: one exactly if it reads `BUF` while busy (20_memory.md R81). -/
def readDraws (a : Byte) (s : State) : Nat :=
  match addrTarget a with
  | .buf _ => if s.busy then 1 else 0
  | _ => 0

/-- The host step `R a`: the byte appears on the `rdata` port; the block's state does not change (20_memory.md R73, R76). -/
def hostRead (a : Byte) (s : State) : State :=
  { s with rdata := some (busRead a s), draws := s.draws + readDraws a s }

/-! ### Writes -/

/-- `Issue(v)` (30_encoding.md R106), with the busy check of 20_memory.md R74 in `exec` and `issueIllegal` (log 12). -/
def issue (v : Byte) (s : State) : Host.Outcome State Fault Refusal :=
  match decode v with
  | .ok i => exec i s
  | .error _ => issueIllegal s

/-- `KEY[i] <- v` (20_memory.md R74). -/
def writeKey (i : Fin 16) (v : Byte) (s : State) : State := { s with key := s.key.set i.val v }

/-- `BusWrite(a, v)` (20_memory.md R74): the host step `W a, v`. -/
def busWrite (a v : Byte) (s : State) : Host.Outcome State Fault Refusal :=
  match addrTarget a with
  | .status => .next (clearStatus v s)
  | .errcode => .next s
  | .unmapped => .next s
  | .buf i => .next (whenIdle (fun t => { t with buf := writeByte t.buf i.val v }) s)
  | .key i => .next (whenIdle (writeKey i v) s)
  | .cmd => issue v s
  | .ctrl => .next (whenIdle (fun t => { t with ctrl := v &&& ctrlMask }) s)
  | .mlen => .next (whenIdle (fun t => { t with mlen := v }) s)
  | .plen => .next (whenIdle (fun t => { t with plen := v }) s)

/-! ### Events -/

/-- The address of the command port `CMD` (20_memory.md R71). -/
def cmdAddr : Byte := 0x50

/-- The state as a step finds it: what the `rdata` port showed for the step before is gone (log 4). -/
def clearRdata (s : State) : State := { s with rdata := none }

/-- The state with the first event taken from the events still to come. -/
def takeEvent (rest : List Event) (s : State) : State := { clearRdata s with inputs := rest }

/-- What one event does (00_scope.md R9). -/
def runEvent (e : Event) (s : State) : Host.Outcome State Fault Refusal :=
  match e with
  | .read a => .next (hostRead a s)
  | .write a v => busWrite a v s
  | .core => coreStep s
  | .reset => .next (applyReset s)

/-- The event that presents the command byte `v` to the block (30_encoding.md R105, `CMD m`). -/
def commandEvent (v : Byte) : Event := .write cmdAddr v

/-- `s` with the host about to write the low byte of the table word to `CMD` (log 13). -/
def presentCommand (s : State) (nbits w : Nat) : State :=
  { s with inputs := commandEvent (BitVec.ofNat 8 (w % 2 ^ nbits)) :: s.inputs }

end Sys2Proof.Machine
end

