-- ==== Sys2Proof/Machine/Step.lean ====
section
/-! DEFINITION. One step of the machine: the next event, or, when no event is to come, the core alone. -/

namespace Sys2Proof.Machine

/-- One step. The agents' order is free (00_scope.md R9), so `inputs` says which moves next. When no event is to come, the
host and the reset input are quiet: a busy core takes its step (70_reset_and_hazards.md R289), and an idle block waits
(R281). DESIGN CHOICE, log 1 and 2 (safe for claims over all event lists). -/
def step (s : State) : Host.Outcome State Fault Refusal :=
  match s.inputs with
  | [] => coreStep (clearRdata s)
  | e :: rest => runEvent e (takeEvent rest s)

/-- `s` with the host about to issue the command of a table word, so that the next step runs it (log 13). -/
def State.withFetchWord (s : State) (nbits w : Nat) : State := presentCommand s nbits w

end Sys2Proof.Machine
end

