-- ==== Sys2Proof/Safety.lean ====
section
/-! DEFINITION. The terms claims use: running the core, the invariant of the block, and what a safe run is. -/

namespace Sys2Proof.Machine

/-- Sequencing of steps: go on from a next state, stop at a fault or a refusal. -/
def andThen (r : Host.Outcome State Fault Refusal) (k : State → Host.Outcome State Fault Refusal) :
    Host.Outcome State Fault Refusal :=
  match r with
  | .next t => k t
  | .fault f => .fault f
  | .refused f => .refused f

/-- `n` turns of the core in a row, with no other event between them. -/
def coreSteps (n : Nat) (s : State) : Host.Outcome State Fault Refusal :=
  match n with
  | 0 => .next s
  | m + 1 => andThen (coreStep s) (coreSteps m)

/-- `n` steps of the machine in a row: `Host.Core.run` of the machine (`runSteps_eq_run`, Laws/Run.lean). -/
def runSteps (n : Nat) (s : State) : Host.Outcome State Fault Refusal :=
  match n with
  | 0 => .next s
  | m + 1 => andThen (step s) (runSteps m)

/-- The number of core steps a busy command takes from its issue (70_reset_and_hazards.md R289). -/
def commandSteps (i : Instr) (s : State) : Nat :=
  match i with
  | .nop => 0
  | .pad => 1
  | .unpad => 1
  | .enc => 1 + s.plen.toNat / 16
  | .dec => 1 + s.plen.toNat / 16
  | .zeroize => 1

/-- An event of the host: a bus read or a bus write (00_scope.md R9). -/
def isHostEvent (e : Event) : Bool :=
  match e with
  | .read _ => true
  | .write _ _ => true
  | .core => false
  | .reset => false

/-- An event that may fall into a busy period: a host access or a turn of the core, but no reset. -/
def isBusyPeriodEvent (e : Event) : Bool :=
  match e with
  | .read _ => true
  | .write _ _ => true
  | .core => true
  | .reset => false

/-- An event that, while the block is idle, writes neither `BUF` nor `PLEN`, issues nothing and resets nothing
(the proviso of 40_padder.md R136). -/
def keepsBuffer (e : Event) : Bool :=
  match e with
  | .read _ => true
  | .write a _ => decide (0x40 ≤ a.toNat) && a != 0x50 && a != 0x55
  | .core => true
  | .reset => false

/-- An event that, while the block is idle, writes neither `BUF` nor `KEY` nor `PLEN`, issues nothing and resets nothing
(the proviso of 42_cbc_engine.md R208). -/
def keepsCipherInput (e : Event) : Bool :=
  match e with
  | .read _ => true
  | .write a _ => decide (0x50 < a.toNat) && a != 0x55
  | .core => true
  | .reset => false

/-- What holds of a busy `ENC` or `DEC`: `nblk` is `PLEN / 16`, in `1..4`; `j < nblk`; once the keys are expanded, `RK` is the
schedule of `KEY` (10_state.md R41; 42_cbc_engine.md R202 to R205). -/
structure CipherInv (s : State) : Prop where
  phase_ne_run : s.fsm.phase ≠ .run
  plen_eq : s.plen.toNat = 16 * s.fsm.nblk
  nblk_pos : 1 ≤ s.fsm.nblk
  nblk_le : s.fsm.nblk ≤ 4
  j_lt : s.fsm.j < s.fsm.nblk
  rk_eq : s.fsm.phase = .blk → s.rk = keyExpansion s.key

/-- What holds of the command in progress (10_state.md R41; 40_padder.md R131, R133). -/
def CommandInv (s : State) : Prop :=
  match s.fsm.op with
  | .pad => s.fsm.phase = .run ∧ s.mlen.toNat < 64
  | .unpad => s.fsm.phase = .run ∧ s.plen.toNat ≤ 64
  | .zeroize => s.fsm.phase = .run
  | .enc => CipherInv s
  | .dec => CipherInv s

/-- The invariant of the block: the buffer is canonical and lies in `0..63`; the reserved bits of `CTRL` are 0
(10_state.md R35); `ERRCODE` is at most `0x04` (60_exceptions.md R251, U10); and while busy, `DONE` and `ERRCODE` are 0
(30_encoding.md R106, 20_memory.md R81) and the command in progress stands where its rule can go on. -/
structure BlockInv (s : State) : Prop where
  buf_wf : s.buf.wf = true
  ctrl_le : s.ctrl.toNat ≤ 3
  errcode_le : s.errcode.toNat ≤ 4
  busy_done : s.busy = true → s.done = false
  busy_errcode : s.busy = true → s.errcode = 0
  busy_command : s.busy = true → CommandInv s

/-- A safe run of `n` steps: no step faults or is refused (60_exceptions.md R250: the block never traps or halts). -/
def SafeRun (n : Nat) (s : State) : Prop := ∃ t, runSteps n s = .next t

end Sys2Proof.Machine
end

