-- ==== Sys2Proof/Certificates/Slice0/Obligations.lean ====
section
/-! DEFINITION. The statements for the provers: the numbered rules of the spec and the whole-machine properties they
give, about every state and every operand. Every one is expected to hold. Byte values of registers are compared as numbers
(`toNat`), bytes of the buffer are read with `readByte`. A statement of the form "`u` equals `s` but for these fields" is
written `u = { s with f := u.f, .. }`: every field that is not listed is unchanged. -/

open Sys2Proof Sys2Proof.Machine

/-! ### Encoding and decoding -/

/-- 30_encoding.md R100, R102: the byte of every command decodes to that command. -/
def Obligations.EncodedCommandDecodesToItself : Prop := ∀ i : Instr, decode (encode i) = .ok i

/-- 30_encoding.md R102, the opcode map: six bytes are commands, `0x06..0x0F` are reserved opcodes, and `0x10..0xFF` carry
reserved bits. -/
def Obligations.OpcodeMap : Prop :=
  decode 0x00#8 = .ok .nop ∧ decode 0x01#8 = .ok .pad ∧ decode 0x02#8 = .ok .unpad ∧ decode 0x03#8 = .ok .enc ∧
    decode 0x04#8 = .ok .dec ∧ decode 0x05#8 = .ok .zeroize ∧
    (∀ v : Byte, 0x06 ≤ v.toNat → v.toNat ≤ 0x0F → decode v = .error .reservedOpcode) ∧
    (∀ v : Byte, 0x10 ≤ v.toNat → decode v = .error .reservedBits)

/-- The host interface of the model (log 13): a table word placed with `withFetchWord` is run by the very next step. -/
def Obligations.PlacedTableWordIsRunNext : Prop :=
  ∀ (s : State) (w : Nat) (i : Instr), w < 256 → decodeTableWord 8 w = some i →
    step (s.withFetchWord 8 w) = exec i { s with rdata := none }

/-! ### One step -/

/-- 30_encoding.md R106, 20_memory.md R74: when the next event is the host's write of `v` to `CMD` and `v` decodes to `i`, the
step is `exec i` on the state from which that event has been taken (and `rdata` cleared, log 4). -/
def Obligations.StepRunsDecodedCommand : Prop :=
  ∀ (s : State) (v : Byte) (rest : List Event) (i : Instr),
    s.inputs = .write 0x50 v :: rest → decode v = .ok i →
      step s = exec i { s with inputs := rest, rdata := none }

/-- 00_scope.md R9 and 70_reset_and_hazards.md R281 (with the model's event list, log 1 to 4): what one step is for each kind
of next event, and when no event is to come. A core step is enabled exactly when the block is busy. -/
def Obligations.StepPerformsNextEvent : Prop :=
  ∀ (s : State) (rest : List Event),
    (∀ a, s.inputs = .read a :: rest →
      ∃ t, step s = .next t ∧ t.rdata = some (busRead a s) ∧
        t = { s with inputs := rest, rdata := t.rdata, draws := t.draws }) ∧
    (∀ a v, s.inputs = .write a v :: rest → step s = busWrite a v { s with inputs := rest, rdata := none }) ∧
    (s.inputs = .core :: rest → s.busy = true → step s = busyStep { s with inputs := rest, rdata := none }) ∧
    (s.inputs = .core :: rest → s.busy = false → step s = .next { s with inputs := rest, rdata := none }) ∧
    (s.inputs = .reset :: rest → step s = .next (applyReset { s with inputs := rest })) ∧
    (s.inputs = [] → s.busy = true → step s = busyStep { s with rdata := none }) ∧
    (s.inputs = [] → s.busy = false → step s = .next { s with rdata := none })

/-! ### The bus -/

/-- 20_memory.md R73, `BusRead(a)` by address, and that a read changes nothing: only the port `rdata` and the count of draws
(both the model's own, log 4 and 6) differ after it. -/
def Obligations.BusReadFollowsTheMap : Prop :=
  ∀ (s : State) (a : Byte) (rest : List Event), s.inputs = .read a :: rest →
    ∃ (t : State) (b : Byte), step s = .next t ∧
      t = { s with inputs := rest, rdata := some b, draws := t.draws } ∧
      (a.toNat ≤ 0x3F → s.busy = true → b = Config.anyByte s.draws ∧ t.draws = s.draws + 1) ∧
      (a.toNat ≤ 0x3F → s.busy = false → b = readByte s.buf a.toNat) ∧
      (0x40 ≤ a.toNat → a.toNat ≤ 0x50 → b = 0x00) ∧
      (a = 0x51 → b.getLsbD 0 = s.busy ∧ b.getLsbD 1 = s.done ∧ (b.getLsbD 2 = true ↔ s.errcode ≠ 0x00) ∧
        b.getLsbD 3 = s.wbusy ∧ b.toNat < 16) ∧
      (a = 0x52 → b = s.errcode) ∧
      (a = 0x53 → b.getLsbD 0 = s.ctrl.getLsbD 0 ∧ b.getLsbD 1 = s.ctrl.getLsbD 1 ∧ b.toNat < 4) ∧
      (a = 0x54 → b = s.mlen) ∧ (a = 0x55 → b = s.plen) ∧ (0x56 ≤ a.toNat → b = 0x00)

/-- 20_memory.md R81: two `BUF` reads in a row while busy are two draws of their own, whatever `BUF` holds. -/
def Obligations.BusyBufferReadsAreFreshDraws : Prop :=
  ∀ (s : State) (a b : Byte) (rest : List Event), s.busy = true → a.toNat ≤ 0x3F → b.toNat ≤ 0x3F →
    s.inputs = .read a :: .read b :: rest →
    ∃ t u, step s = .next t ∧ step t = .next u ∧ t.rdata = some (Config.anyByte s.draws) ∧
      u.rdata = some (Config.anyByte (s.draws + 1)) ∧ u.draws = s.draws + 2 ∧ u.busy = true

/-- 20_memory.md R74, `BusWrite(a, v)` by address: `STATUS` always, read-only and unmapped addresses never, everything else only
while not busy, and while busy only `WBUSY` is set. -/
def Obligations.BusWriteFollowsTheMap : Prop :=
  ∀ (s : State) (a v : Byte),
    (a = 0x51 → busWrite a v s =
      .next { s with
        done := if v.getLsbD 1 = true then false else s.done
        wbusy := if v.getLsbD 3 = true then false else s.wbusy }) ∧
    (a = 0x52 ∨ 0x56 ≤ a.toNat → busWrite a v s = .next s) ∧
    (s.busy = true → a.toNat ≤ 0x55 → a ≠ 0x51 → a ≠ 0x52 → busWrite a v s = .next { s with wbusy := true }) ∧
    (s.busy = false → a.toNat ≤ 0x3F →
      ∃ t, busWrite a v s = .next t ∧ t = { s with buf := t.buf } ∧
        ∀ x, readByte t.buf x = if x = a.toNat then v else readByte s.buf x) ∧
    (s.busy = false → 0x40 ≤ a.toNat → a.toNat ≤ 0x4F →
      ∃ t, busWrite a v s = .next t ∧ t = { s with key := t.key } ∧
        ∀ k : Fin 16, t.key[k] = if k.val = a.toNat - 0x40 then v else s.key[k]) ∧
    (s.busy = false → a = 0x50 → ∀ i, decode v = .ok i → busWrite a v s = exec i s) ∧
    (s.busy = false → a = 0x50 → ∀ e, decode v = .error e →
      busWrite a v s = .next { s with done := true, errcode := 0x04 }) ∧
    (s.busy = false → a = 0x53 →
      ∃ t, busWrite a v s = .next t ∧ t = { s with ctrl := t.ctrl } ∧ t.ctrl.getLsbD 0 = v.getLsbD 0 ∧
        t.ctrl.getLsbD 1 = v.getLsbD 1 ∧ t.ctrl.toNat < 4) ∧
    (s.busy = false → a = 0x54 → busWrite a v s = .next { s with mlen := v }) ∧
    (s.busy = false → a = 0x55 → busWrite a v s = .next { s with plen := v })

/-- 20_memory.md R82: while busy, a host write to `BUF`, `KEY`, `CMD`, `CTRL`, `MLEN` or `PLEN` changes nothing but `WBUSY`
(so no second command is issued), and a write to `STATUS` keeps its effect. That the step takes its event from the list and
clears `rdata` is the model's choice (log 1 and 4). -/
def Obligations.BusyWriteOnlySetsWbusy : Prop :=
  ∀ (s : State) (a v : Byte) (rest : List Event), s.busy = true → s.inputs = .write a v :: rest →
    (a.toNat ≤ 0x50 ∨ a = 0x53 ∨ a = 0x54 ∨ a = 0x55 →
      step s = .next { s with inputs := rest, rdata := none, wbusy := true }) ∧
    (a = 0x51 → step s =
      .next { s with
        inputs := rest
        rdata := none
        done := if v.getLsbD 1 = true then false else s.done
        wbusy := if v.getLsbD 3 = true then false else s.wbusy })

/-- 20_memory.md R79 on the buffer: a host read returns what the last host write to that address wrote, and other
addresses read as before. -/
def Obligations.BufferReadsBackWhatWasWritten : Prop :=
  ∀ (s : State) (a b v : Byte) (rest : List Event), s.busy = false → a.toNat ≤ 0x3F → b.toNat ≤ 0x3F →
    s.inputs = .write a v :: .read b :: rest →
    ∃ t u, step s = .next t ∧ step t = .next u ∧
      u.rdata = some (if b = a then v else readByte s.buf b.toNat) ∧ u.inputs = rest

/-- 10_state.md R32, R44, R45: no host read shows anything of `KEY`, `CV` or `RK`. -/
def Obligations.KeyAndContextAreNeverReadable : Prop :=
  ∀ (s : State) (key cv : Block) (rk : RoundKeys) (a : Byte),
    busRead a { s with key := key, cv := cv, rk := rk } = busRead a s

/-! ### Reset -/

/-- 10_state.md R48: the reset values the spec gives (the unspecified hidden fields are not spoken of). -/
def Obligations.ResetStateHoldsResetValues : Prop :=
  (∀ x, readByte State.reset.buf x = 0x00) ∧ (∀ k : Fin 16, State.reset.key[k] = 0x00) ∧ State.reset.mlen = 0x00 ∧
    State.reset.plen = 0x00 ∧ State.reset.ctrl = 0x00 ∧ State.reset.strict = false ∧ State.reset.ie = false ∧
    State.reset.status = 0x00 ∧ State.reset.busy = false ∧ State.reset.done = false ∧ State.reset.err = false ∧
    State.reset.wbusy = false ∧ State.reset.errcode = 0x00 ∧ State.reset.fsm.mode = .idle ∧ State.reset.irq = false

/-- 70_reset_and_hazards.md R280: a reset, whenever it comes, busy or not, is the step that is taken; it sets every register to
its reset value and abandons a command in progress without completing it. -/
def Obligations.ResetAtAnyTimeClearsTheBlock : Prop :=
  ∀ (s : State) (rest : List Event), s.inputs = .reset :: rest →
    ∃ t, step s = .next t ∧ t.inputs = rest ∧ t.ivConst = s.ivConst ∧ (∀ x, readByte t.buf x = 0x00) ∧
      (∀ k : Fin 16, t.key[k] = 0x00) ∧ t.mlen = 0x00 ∧ t.plen = 0x00 ∧ t.ctrl = 0x00 ∧ t.done = false ∧
      t.wbusy = false ∧ t.errcode = 0x00 ∧ t.fsm.mode = .idle ∧ t.busy = false ∧ t.irq = false

/-! ### Status, completion, interrupt -/

/-- 60_exceptions.md R252 with the codes of R251: what `complete(code)` writes, what it leaves, and that no core step is enabled
afterwards. -/
def Obligations.CompletionWritesStatusAndCode : Prop :=
  ∀ (c : ErrCode) (s : State),
    complete c s = { s with errcode := c.code, done := true, fsm := { s.fsm with mode := .idle } } ∧
      (complete c s).busy = false ∧ (complete c s).irq = s.ie ∧
      ((complete c s).err = true ↔ c ≠ .none) ∧ coreStep (complete c s) = .next (complete c s) ∧
      ErrCode.none.code = 0x00 ∧ ErrCode.paddingError.code = 0x01 ∧ ErrCode.messageTooLarge.code = 0x02 ∧
      ErrCode.invalidInput.code = 0x03 ∧ ErrCode.illegalCmd.code = 0x04 ∧ ErrCode.cryptoInitError.code = 0x05

/-- 10_state.md R46, 60_exceptions.md R255: `irq` is `IE AND DONE`; it falls when the host clears `DONE` or `IE`, and an accepted
command lowers it. -/
def Obligations.IrqFollowsEnableAndDone : Prop :=
  ∀ (s t : State) (v : Byte),
    (s.irq = true ↔ s.ctrl.getLsbD 1 = true ∧ s.done = true) ∧
    (v.getLsbD 1 = true → busWrite 0x51 v s = .next t → t.irq = false) ∧
    (v.getLsbD 1 = false → s.busy = false → busWrite 0x53 v s = .next t → t.irq = false ∧ t.done = s.done) ∧
    (s.busy = false → busWrite 0x50 v s = .next t → t.busy = true → t.irq = false)

/-- 10_state.md R37: `BUSY` rises only by the issue of a command that is not `NOP`, and falls only by the core's turn or by a
reset. -/
def Obligations.BusyChangesOnlyByIssueCoreOrReset : Prop :=
  ∀ s t : State, step s = .next t →
    (s.busy = false → t.busy = true →
      ∃ v i rest, s.inputs = .write 0x50 v :: rest ∧ decode v = .ok i ∧ i ≠ .nop) ∧
    (s.busy = true → t.busy = false →
      s.inputs = [] ∨ (∃ rest, s.inputs = .core :: rest) ∨ ∃ rest, s.inputs = .reset :: rest)

/-- 10_state.md R36, R40, 60_exceptions.md R258: `WBUSY` is sticky. It is set only by a host write, while busy, to `BUF`, `KEY`, `CMD`,
`CTRL`, `MLEN` or `PLEN`, and cleared only by a host write to `STATUS` with bit 3 set or by a reset. -/
def Obligations.WbusyIsSticky : Prop :=
  ∀ s t : State, step s = .next t →
    (s.wbusy = true → t.wbusy = false →
      (∃ v rest, s.inputs = .write 0x51 v :: rest ∧ v.getLsbD 3 = true) ∨ ∃ rest, s.inputs = .reset :: rest) ∧
    (s.wbusy = false → t.wbusy = true →
      s.busy = true ∧ ∃ a v rest, s.inputs = .write a v :: rest ∧
        (a.toNat ≤ 0x50 ∨ (0x53 ≤ a.toNat ∧ a.toNat ≤ 0x55)))

/-- 10_state.md R36, R38: `DONE` rises only by a completion: by the core's turn of a busy block, or by an issue that completes at
once; it falls only by an issue, by a host write to `STATUS` with bit 1 set, or by a reset. -/
def Obligations.DoneRisesOnlyByCompletion : Prop :=
  ∀ s t : State, step s = .next t →
    (s.done = false → t.done = true → t.busy = false ∧
      ((s.busy = true ∧ (s.inputs = [] ∨ ∃ rest, s.inputs = .core :: rest)) ∨
        (s.busy = false ∧ ∃ v rest, s.inputs = .write 0x50 v :: rest))) ∧
    (s.done = true → t.done = false →
      (∃ v rest, s.inputs = .write 0x50 v :: rest ∧ s.busy = false) ∨
        (∃ v rest, s.inputs = .write 0x51 v :: rest ∧ v.getLsbD 1 = true) ∨ ∃ rest, s.inputs = .reset :: rest)

/-! ### Commands in general -/

/-- 20_memory.md R82, 60_exceptions.md R257: a command issued while busy is dropped; only `WBUSY` is set. This is where a
command is turned away, not where it completes. -/
def Obligations.CommandWhileBusyIsDropped : Prop :=
  ∀ (i : Instr) (s : State), s.busy = true → exec i s = .next { s with wbusy := true }

/-- 30_encoding.md R103: while idle, every byte that is no command completes at once with `ERRCODE = 0x04` and `DONE = 1`, and
nothing else changes. -/
def Obligations.IllegalByteCompletesAtOnce : Prop :=
  ∀ (s : State) (v : Byte), s.busy = false → (v.extractLsb' 4 4 ≠ 0#4 ∨ 0x6 ≤ (v.extractLsb' 0 4).toNat) →
    busWrite 0x50 v s = .next { s with done := true, errcode := 0x04 }

/-- 60_exceptions.md R250: a failed command is precise. If an issue or a core step ends a command with a nonzero code, nothing
but `DONE`, `ERRCODE` and `FSM.mode` has changed. -/
def Obligations.FailedCommandsArePrecise : Prop :=
  (∀ (i : Instr) (s t : State), s.busy = false → exec i s = .next t → t.errcode ≠ 0x00 →
    t = { s with done := true, errcode := t.errcode }) ∧
  (∀ s u : State, s.busy = true → coreStep s = .next u → u.busy = false → u.errcode ≠ 0x00 →
    u = { s with done := true, errcode := u.errcode, fsm := { s.fsm with mode := .idle } })

/-- 30_encoding.md R101, R106: the frame of an issue. No issue changes a byte of `BUF`, nor `KEY`, `MLEN`, `PLEN`, `CTRL`, `CV`, `RK`;
`WBUSY` can only be set, and only while busy. -/
def Obligations.IssueFrame : Prop :=
  ∀ (i : Instr) (s t : State), exec i s = .next t →
    (∀ x, readByte t.buf x = readByte s.buf x) ∧
    t = { s with done := t.done, errcode := t.errcode, fsm := t.fsm, wbusy := t.wbusy, draws := t.draws } ∧
    t.wbusy = (s.wbusy || s.busy)

/-- 30_encoding.md R101 and the command rules: the frame of one core step. Each command writes only what R101 lists for it;
every byte of `BUF` outside the bytes its rule stores to reads as before. -/
def Obligations.CoreStepFrame : Prop :=
  ∀ s t : State, s.busy = true → coreStep s = .next t →
    (s.fsm.op = .pad →
      (∀ x, x < s.mlen.toNat ∨ s.mlen.toNat + padValue s.mlen.toNat ≤ x → readByte t.buf x = readByte s.buf x) ∧
      t = { s with buf := t.buf, plen := t.plen, done := t.done, errcode := t.errcode, fsm := t.fsm }) ∧
    (s.fsm.op = .unpad →
      (∀ x, readByte t.buf x = readByte s.buf x) ∧
      t = { s with mlen := t.mlen, done := t.done, errcode := t.errcode, fsm := t.fsm }) ∧
    (s.fsm.op = .enc ∨ s.fsm.op = .dec → s.fsm.phase = .kexp →
      (∀ x, readByte t.buf x = readByte s.buf x) ∧ t = { s with rk := t.rk, cv := t.cv, fsm := t.fsm }) ∧
    (s.fsm.op = .enc ∨ s.fsm.op = .dec → s.fsm.phase = .blk →
      (∀ x, x < 16 * s.fsm.j ∨ 16 * s.fsm.j + 16 ≤ x → readByte t.buf x = readByte s.buf x) ∧
      t = { s with buf := t.buf, cv := t.cv, done := t.done, errcode := t.errcode, fsm := t.fsm }) ∧
    (s.fsm.op = .zeroize →
      (∀ x, 64 ≤ x → readByte t.buf x = readByte s.buf x) ∧
      t = { s with
        buf := t.buf, key := t.key, mlen := t.mlen, plen := t.plen, cv := t.cv, rk := t.rk, done := t.done,
        errcode := t.errcode, fsm := t.fsm })

/-! ### NOP and ZEROIZE -/

/-- 43_control_cmds.md R230: `NOP` completes at once; only `DONE` and `ERRCODE` change, and with `IE = 1` it raises `irq`. -/
def Obligations.NopCompletesAtOnce : Prop :=
  encode .nop = 0x00 ∧
    ∀ s : State, s.busy = false →
      ∃ t, exec .nop s = .next t ∧ t = { s with done := true, errcode := 0x00 } ∧ t.busy = false ∧ t.irq = s.ie

/-- 43_control_cmds.md R231: `ZEROIZE` is always accepted, and its one core step clears `BUF`, `KEY`, `MLEN`, `PLEN`, `CV` and `RK`, keeps `CTRL`
and `WBUSY`, and completes with code 0. -/
def Obligations.ZeroizeClearsKeyAndBuffer : Prop :=
  encode .zeroize = 0x05 ∧
    ∀ s : State, s.busy = false →
      ∃ t u, exec .zeroize s = .next t ∧ t.busy = true ∧ t.done = false ∧ coreStep t = .next u ∧
        (∀ x, x < 64 → readByte u.buf x = 0x00) ∧ (∀ x, 64 ≤ x → readByte u.buf x = readByte s.buf x) ∧
        (∀ k : Fin 16, u.key[k] = 0x00) ∧ u.mlen = 0x00 ∧ u.plen = 0x00 ∧ (∀ k : Fin 16, u.cv[k] = 0x00) ∧
        (∀ (i : Fin 11) (k : Fin 16), u.rk[i][k] = 0x00) ∧ u.busy = false ∧
        u = { s with
          buf := u.buf, key := u.key, mlen := u.mlen, plen := u.plen, cv := u.cv, rk := u.rk, done := true,
          errcode := 0x00, fsm := u.fsm, draws := u.draws }

/-! ### PAD and UNPAD -/

/-- 40_padder.md R130: the padding function, and the padded buffer of a message of `m` bytes. -/
def Obligations.PaddingFunction : Prop :=
  ∀ m : Nat, padLen m = (m / 16 + 1) * 16 ∧ padValue m = padLen m - m ∧ padValue m = 16 - m % 16 ∧ 1 ≤ padValue m ∧
    padValue m ≤ 16 ∧ (padValue m = 16 ↔ m % 16 = 0) ∧
    ∀ (b : Memory) (x : Nat), readByte (padBuffer b m) x =
      if m ≤ x ∧ x < padLen m then BitVec.ofNat 8 (padValue m) else readByte b x

/-- 40_padder.md R131: `PAD` is refused with `0x02` exactly when `MLEN >= 64`, which is when the padded length exceeds 64; otherwise
it starts the state machine. (`FSM.nblk` is a free value, log 7.) -/
def Obligations.PadAccept : Prop :=
  encode .pad = 0x01 ∧
    ∀ s : State, s.busy = false →
      (64 ≤ s.mlen.toNat ↔ 64 < padLen s.mlen.toNat) ∧
      (64 ≤ s.mlen.toNat → exec .pad s = .next { s with done := true, errcode := 0x02 }) ∧
      (s.mlen.toNat < 64 →
        ∃ t, exec .pad s = .next t ∧ t.busy = true ∧ t.fsm.op = .pad ∧ t.fsm.phase = .run ∧ t.fsm.j = 0 ∧
          t = { s with done := false, errcode := 0x00, fsm := t.fsm, draws := t.draws })

/-- 40_padder.md R131, R132: `PAD` of a message of `m <= 63` bytes, from its issue to its completion: `p = 16 - (m mod 16)` bytes `p` follow
the message, `PLEN` is `m + p`, and nothing else changes but `STATUS`, `ERRCODE` and the hidden `FSM`. -/
def Obligations.PadAppendsPadding : Prop :=
  ∀ s : State, s.busy = false → s.mlen.toNat ≤ 63 →
    ∃ t u, exec .pad s = .next t ∧ coreStep t = .next u ∧
      (∀ x, readByte u.buf x =
        if s.mlen.toNat ≤ x ∧ x < s.mlen.toNat + (16 - s.mlen.toNat % 16) then BitVec.ofNat 8 (16 - s.mlen.toNat % 16)
        else readByte s.buf x) ∧
      u.plen.toNat = s.mlen.toNat + (16 - s.mlen.toNat % 16) ∧ u.busy = false ∧
      u = { s with
        buf := u.buf, plen := u.plen, done := true, errcode := 0x00, fsm := u.fsm, draws := u.draws }

/-- 40_padder.md R137: after a successful `PAD` the last byte of the padded buffer is in `1..16` and counts the bytes written, and `PLEN`
is a positive multiple of 16 of at most 64. -/
def Obligations.PaddedBufferEndsInItsCount : Prop :=
  ∀ s t u : State, s.busy = false → exec .pad s = .next t → coreStep t = .next u → u.errcode = 0x00 →
    1 ≤ (readByte u.buf (u.plen.toNat - 1)).toNat ∧ (readByte u.buf (u.plen.toNat - 1)).toNat ≤ 16 ∧
      (readByte u.buf (u.plen.toNat - 1)).toNat = u.plen.toNat - s.mlen.toNat ∧ 1 ≤ u.plen.toNat ∧
      u.plen.toNat % 16 = 0 ∧ u.plen.toNat ≤ 64

/-- 40_padder.md R133: `UNPAD` is refused with `0x03` exactly when `PLEN > 64`; otherwise it starts the state machine. -/
def Obligations.UnpadAccept : Prop :=
  encode .unpad = 0x02 ∧
    ∀ s : State, s.busy = false →
      (64 < s.plen.toNat → exec .unpad s = .next { s with done := true, errcode := 0x03 }) ∧
      (s.plen.toNat ≤ 64 →
        ∃ t, exec .unpad s = .next t ∧ t.busy = true ∧ t.fsm.op = .unpad ∧ t.fsm.phase = .run ∧ t.fsm.j = 0 ∧
          t = { s with done := false, errcode := 0x00, fsm := t.fsm, draws := t.draws })

/-- 40_padder.md R134: what the padding check accepts, loose and strict. -/
def Obligations.PaddingCheck : Prop :=
  ∀ (len : Nat) (b : Memory) (strict : Bool), len ≤ 64 →
    (padOK len b strict = true ↔
      len ≠ 0 ∧ 1 ≤ (readByte b (len - 1)).toNat ∧ (readByte b (len - 1)).toNat ≤ 16 ∧
        (readByte b (len - 1)).toNat ≤ len ∧
        (strict = true → ∀ i, len - (readByte b (len - 1)).toNat ≤ i → i < len → readByte b i = readByte b (len - 1)))

/-- 40_padder.md R133, R135: `UNPAD` of a buffer of `L <= 64` bytes, from its issue to its completion: if the padding check passes,
`MLEN` is `L` less the last byte and the code is 0; otherwise `MLEN` is unchanged and the code is `0x01`. `BUF` and `PLEN` keep their
values. -/
def Obligations.UnpadStripsOrReports : Prop :=
  ∀ s : State, s.busy = false → s.plen.toNat ≤ 64 →
    ∃ t u, exec .unpad s = .next t ∧ coreStep t = .next u ∧
      (padOK s.plen.toNat s.buf s.strict = true →
        u.mlen.toNat = s.plen.toNat - (readByte s.buf (s.plen.toNat - 1)).toNat ∧ u.errcode = 0x00) ∧
      (padOK s.plen.toNat s.buf s.strict = false → u.mlen = s.mlen ∧ u.errcode = 0x01) ∧
      (∀ x, readByte u.buf x = readByte s.buf x) ∧ u.busy = false ∧
      u = { s with mlen := u.mlen, done := true, errcode := u.errcode, fsm := u.fsm, draws := u.draws }

/-- 40_padder.md R138: the strict check accepts a subset of what the loose check accepts, with the same `MLEN`. -/
def Obligations.StrictAcceptsSubsetOfLoose : Prop :=
  (∀ (len : Nat) (b : Memory), padOK len b true = true → padOK len b false = true) ∧
  (∀ s t : State, unpadStep { s with ctrl := 0x01 } = .next t → t.errcode = 0x00 →
    ∃ u, unpadStep { s with ctrl := 0x00 } = .next u ∧ u.errcode = 0x00 ∧ u.mlen = t.mlen)

/-- 40_padder.md R136: `PAD` and then `UNPAD` recover the message length and leave the message, whatever host events come while the
commands are busy, and whatever events that write neither `BUF` nor `PLEN` nor `CMD` come between them (so for both values of
`STRICT`, which such an event may change). -/
def Obligations.PadThenUnpadRecoversLength : Prop :=
  ∀ (s : State) (es₁ es₂ es₃ rest : List Event), s.busy = false → s.mlen.toNat ≤ 63 →
    es₁.all isHostEvent = true → es₂.all keepsBuffer = true → es₃.all isHostEvent = true →
    s.inputs = .write 0x50 0x01 :: (es₁ ++ .core :: (es₂ ++ .write 0x50 0x02 :: (es₃ ++ .core :: rest))) →
    ∃ u, runSteps (es₁.length + es₂.length + es₃.length + 4) s = .next u ∧ u.inputs = rest ∧
      u.busy = false ∧ u.mlen = s.mlen ∧ u.errcode = 0x00 ∧
      ∀ x, x < s.mlen.toNat → readByte u.buf x = readByte s.buf x

/-! ### The AES-128 core -/

/-- 41_aes128_core.md R161: `gfMul` is a commutative product over exclusive-or with unit `0x01`; `0x02` multiplies by `xtime`; every nonzero
byte has the inverse `gfInv`; and the rule's examples. -/
def Obligations.FieldArithmetic : Prop :=
  (∀ a b : Byte, gfMul a b = gfMul b a) ∧ (∀ a b c : Byte, gfMul a (b ^^^ c) = gfMul a b ^^^ gfMul a c) ∧
    (∀ a : Byte, gfMul a 0x01 = a) ∧ (∀ a : Byte, gfMul a 0x02 = xtime a) ∧
    (∀ a : Byte, a ≠ 0x00 → gfMul a (gfInv a) = 0x01) ∧ gfInv 0x00 = 0x00 ∧ gfMul 0x57 0x83 = 0xC1 ∧
    xtime 0x57 = 0xAE ∧ xtime 0xAE = 0x47

/-- 41_aes128_core.md R162: the table `SBOX` is the rule's formula on the field inverse, and the rule's example. -/
def Obligations.SboxTableIsTheFormula : Prop :=
  sbox 0x53 = 0xED ∧
    ∀ a : Byte,
      sbox a = gfInv a ^^^ (gfInv a).rotateLeft 1 ^^^ (gfInv a).rotateLeft 2 ^^^ (gfInv a).rotateLeft 3 ^^^
        (gfInv a).rotateLeft 4 ^^^ 0x63

/-- 41_aes128_core.md R168: `INV_SBOX` is the inverse permutation of `SBOX`. -/
def Obligations.InvSboxInvertsSbox : Prop :=
  (∀ a : Byte, invSbox (sbox a) = a) ∧ (∀ a : Byte, sbox (invSbox a) = a) ∧ invSbox 0xED = 0x53

/-- 41_aes128_core.md R165, R169: the row shifts, and that the second undoes the first. -/
def Obligations.InvShiftRowsInverts : Prop :=
  ∀ (s : Block) (r c : Fin 4),
    cell (shiftRows s) r c = cell s r ⟨(c.val + r.val) % 4, Nat.mod_lt _ (by decide)⟩ ∧
      cell (invShiftRows s) r c = cell s r ⟨(c.val + 4 - r.val) % 4, Nat.mod_lt _ (by decide)⟩ ∧
      invShiftRows (shiftRows s) = s

/-- 41_aes128_core.md R166, R171: the column mixes, the rules' examples (in every column), and that the second undoes the first. -/
def Obligations.InvMixColumnsInverts : Prop :=
  (∀ a : Byte, gfMul 0x03 a = xtime a ^^^ a) ∧
    (let plain : Block :=
      #v[0xDB, 0x13, 0x53, 0x45, 0xDB, 0x13, 0x53, 0x45, 0xDB, 0x13, 0x53, 0x45, 0xDB, 0x13, 0x53, 0x45]
     let mixed : Block :=
      #v[0x8E, 0x4D, 0xA1, 0xBC, 0x8E, 0x4D, 0xA1, 0xBC, 0x8E, 0x4D, 0xA1, 0xBC, 0x8E, 0x4D, 0xA1, 0xBC]
     mixColumns plain = mixed ∧ invMixColumns mixed = plain) ∧
    ∀ (s : Block) (c : Fin 4),
      (let a0 := cell s 0 c
       let a1 := cell s 1 c
       let a2 := cell s 2 c
       let a3 := cell s 3 c
       cell (mixColumns s) 0 c = gfMul 0x02 a0 ^^^ gfMul 0x03 a1 ^^^ a2 ^^^ a3 ∧
         cell (mixColumns s) 1 c = a0 ^^^ gfMul 0x02 a1 ^^^ gfMul 0x03 a2 ^^^ a3 ∧
         cell (mixColumns s) 2 c = a0 ^^^ a1 ^^^ gfMul 0x02 a2 ^^^ gfMul 0x03 a3 ∧
         cell (mixColumns s) 3 c = gfMul 0x03 a0 ^^^ a1 ^^^ a2 ^^^ gfMul 0x02 a3 ∧
         cell (invMixColumns s) 0 c = gfMul 0x0E a0 ^^^ gfMul 0x0B a1 ^^^ gfMul 0x0D a2 ^^^ gfMul 0x09 a3 ∧
         cell (invMixColumns s) 1 c = gfMul 0x09 a0 ^^^ gfMul 0x0E a1 ^^^ gfMul 0x0B a2 ^^^ gfMul 0x0D a3 ∧
         cell (invMixColumns s) 2 c = gfMul 0x0D a0 ^^^ gfMul 0x09 a1 ^^^ gfMul 0x0E a2 ^^^ gfMul 0x0B a3 ∧
         cell (invMixColumns s) 3 c = gfMul 0x0B a0 ^^^ gfMul 0x0D a1 ^^^ gfMul 0x09 a2 ^^^ gfMul 0x0E a3) ∧
      invMixColumns (mixColumns s) = s

/-- 41_aes128_core.md R172 to R174: the word operations, the 44 words of the key schedule and the 11 round keys made of
them. -/
def Obligations.KeyScheduleRecurrence : Prop :=
  (∀ a b : KeyWord, rotWord a = #v[a[1], a[2], a[3], a[0]] ∧ subWord a = #v[sbox a[0], sbox a[1], sbox a[2], sbox a[3]] ∧
    ∀ k : Fin 4, (xorWord a b)[k] = a[k] ^^^ b[k]) ∧
  (List.range 10).map (fun i => rcon (i + 1)) =
    ([0x01, 0x02, 0x04, 0x08, 0x10, 0x20, 0x40, 0x80, 0x1B, 0x36] : List Byte).map (fun r => #v[r, 0x00, 0x00, 0x00]) ∧
  ∀ key : Block,
    (keyWords key).length = 44 ∧
    (∀ i : Fin 4, (keyWords key)[i.val]? =
      some #v[key[4 * i.val], key[4 * i.val + 1], key[4 * i.val + 2], key[4 * i.val + 3]]) ∧
    (∀ i, 4 ≤ i → i < 44 →
      ∃ w w4 w1 : KeyWord, (keyWords key)[i]? = some w ∧ (keyWords key)[i - 4]? = some w4 ∧
        (keyWords key)[i - 1]? = some w1 ∧
        w = xorWord w4 (if i % 4 = 0 then xorWord (subWord (rotWord w1)) (rcon (i / 4)) else w1)) ∧
    (∀ (i : Fin 11) (r c : Fin 4),
      ∃ w : KeyWord, (keyWords key)[4 * i.val + c.val]? = some w ∧ cell (keyExpansion key)[i] r c = w[r]) ∧
    (keyExpansion key)[0] = key

/-- 41_aes128_core.md R164, R167, R170, R175 to R177: the bytewise transformations, the rounds, and the states that the cipher and the
inverse cipher pass through. -/
def Obligations.CipherRounds : Prop :=
  (∀ (s k : Block) (r c : Fin 4),
    cell (subBytes s) r c = sbox (cell s r c) ∧ cell (invSubBytes s) r c = invSbox (cell s r c) ∧
      cell (addRoundKey s k) r c = cell s r c ^^^ k[r.val + 4 * c.val]) ∧
  (∀ s k : Block,
    aesRound s k = addRoundKey (mixColumns (shiftRows (subBytes s))) k ∧
      aesFinalRound s k = addRoundKey (shiftRows (subBytes s)) k ∧
      aesInvRound s k = invMixColumns (addRoundKey (invSubBytes (invShiftRows s)) k) ∧
      aesInvFinalRound s k = addRoundKey (invSubBytes (invShiftRows s)) k) ∧
  ∀ (rk : RoundKeys) (x : Block),
    (∃ f : Nat → Block, f 0 = addRoundKey x rk[0] ∧
      (∀ r : Fin 11, 1 ≤ r.val → r.val ≤ 9 → f r.val = aesRound (f (r.val - 1)) rk[r]) ∧
      aesEncrypt rk x = aesFinalRound (f 9) rk[10]) ∧
    (∃ f : Nat → Block, f 10 = addRoundKey x rk[10] ∧
      (∀ r : Fin 11, 1 ≤ r.val → r.val ≤ 9 → f r.val = aesInvRound (f (r.val + 1)) rk[r]) ∧
      aesDecrypt rk x = aesInvFinalRound (f 1) rk[0])

/-- 41_aes128_core.md R178: under every key the inverse cipher undoes the cipher and the other way round, so the cipher permutes the
blocks. -/
def Obligations.AesDecryptInvertsEncrypt : Prop :=
  ∀ key : Block,
    (∀ x, aesDecrypt (keyExpansion key) (aesEncrypt (keyExpansion key) x) = x) ∧
      (∀ x, aesEncrypt (keyExpansion key) (aesDecrypt (keyExpansion key) x) = x) ∧
      Function.Bijective (aesEncrypt (keyExpansion key))

/-- 41_aes128_core.md R176 and R177, the examples (FIPS-197 C.1), both ways. -/
def Obligations.FipsExampleVector : Prop :=
  let key : Block :=
    #v[0x00, 0x01, 0x02, 0x03, 0x04, 0x05, 0x06, 0x07, 0x08, 0x09, 0x0A, 0x0B, 0x0C, 0x0D, 0x0E, 0x0F]
  let plain : Block :=
    #v[0x00, 0x11, 0x22, 0x33, 0x44, 0x55, 0x66, 0x77, 0x88, 0x99, 0xAA, 0xBB, 0xCC, 0xDD, 0xEE, 0xFF]
  let cipher : Block :=
    #v[0x69, 0xC4, 0xE0, 0xD8, 0x6A, 0x7B, 0x04, 0x30, 0xD8, 0xCD, 0xB7, 0x80, 0x70, 0xB4, 0xC5, 0x5A]
  aesEncrypt (keyExpansion key) plain = cipher ∧ aesDecrypt (keyExpansion key) cipher = plain

/-! ### CBC, ENC and DEC -/

/-- 42_cbc_engine.md R200, R201: the CBC equations for every number of blocks, and that decryption undoes encryption. -/
def Obligations.CbcDecryptInvertsEncrypt : Prop :=
  ∀ (key iv : Block) (blocks : List Block),
    (∀ j, j < blocks.length →
      (cbcEncrypt key iv blocks)[j]? =
        some (aesEncrypt (keyExpansion key)
          (xorBlock (blocks.getD j zeroBlock)
            (if j = 0 then iv else (cbcEncrypt key iv blocks).getD (j - 1) zeroBlock)))) ∧
    (∀ j, j < blocks.length →
      (cbcDecrypt key iv blocks)[j]? =
        some (xorBlock (aesDecrypt (keyExpansion key) (blocks.getD j zeroBlock))
          (if j = 0 then iv else blocks.getD (j - 1) zeroBlock))) ∧
    (cbcEncrypt key iv blocks).length = blocks.length ∧ (cbcDecrypt key iv blocks).length = blocks.length ∧
    cbcDecrypt key iv (cbcEncrypt key iv blocks) = blocks

/-- 42_cbc_engine.md R202, R204: `ENC` and `DEC` are refused with `0x03` unless `PLEN` is 16, 32, 48 or 64; otherwise they start the
state machine with `PLEN / 16` blocks. -/
def Obligations.CipherAccept : Prop :=
  encode .enc = 0x03 ∧ encode .dec = 0x04 ∧
    ∀ s : State, s.busy = false →
      (¬(s.plen = 16 ∨ s.plen = 32 ∨ s.plen = 48 ∨ s.plen = 64) →
        exec .enc s = .next { s with done := true, errcode := 0x03 } ∧
          exec .dec s = .next { s with done := true, errcode := 0x03 }) ∧
      (s.plen = 16 ∨ s.plen = 32 ∨ s.plen = 48 ∨ s.plen = 64 →
        exec .enc s = .next { s with
          done := false
          errcode := 0x00
          fsm := { mode := .busy, op := .enc, phase := .kexp, j := 0, nblk := s.plen.toNat / 16 } } ∧
        exec .dec s = .next { s with
          done := false
          errcode := 0x00
          fsm := { mode := .busy, op := .dec, phase := .kexp, j := 0, nblk := s.plen.toNat / 16 } })

/-- 42_cbc_engine.md R203, R205: the key-expansion step and the block steps of `ENC` and `DEC`, one by one, for every block inside the
buffer.
Taking the reference state machine, with its number of core steps, is the model's choice (log 11). -/
def Obligations.CipherCoreSteps : Prop :=
  ∀ s : State, s.busy = true →
    (s.fsm.op = .enc ∨ s.fsm.op = .dec → s.fsm.phase = .kexp →
      coreStep s = .next { s with
        rk := keyExpansion s.key
        cv := s.ivConst
        fsm := { s.fsm with j := 0, phase := .blk } }) ∧
    (s.fsm.phase = .blk → s.fsm.j ≤ 3 → s.fsm.op = .enc →
      ∃ u, coreStep s = .next u ∧
        readBlock u.buf s.fsm.j = aesEncrypt s.rk (xorBlock (readBlock s.buf s.fsm.j) s.cv) ∧
        u.cv = readBlock u.buf s.fsm.j) ∧
    (s.fsm.phase = .blk → s.fsm.j ≤ 3 → s.fsm.op = .dec →
      ∃ u, coreStep s = .next u ∧
        readBlock u.buf s.fsm.j = xorBlock (aesDecrypt s.rk (readBlock s.buf s.fsm.j)) s.cv ∧
        u.cv = readBlock s.buf s.fsm.j) ∧
    (s.fsm.phase = .blk → s.fsm.j ≤ 3 → s.fsm.op = .enc ∨ s.fsm.op = .dec →
      ∃ u, coreStep s = .next u ∧ u.fsm.j = s.fsm.j + 1 ∧
        (∀ x, x < 16 * s.fsm.j ∨ 16 * s.fsm.j + 16 ≤ x → readByte u.buf x = readByte s.buf x) ∧
        (s.fsm.j + 1 = s.fsm.nblk →
          u = { s with
            buf := u.buf, cv := u.cv, done := true, errcode := 0x00,
            fsm := { s.fsm with mode := .idle, j := s.fsm.j + 1 } }) ∧
        (s.fsm.j + 1 ≠ s.fsm.nblk →
          u = { s with buf := u.buf, cv := u.cv, fsm := { s.fsm with j := s.fsm.j + 1 } }))

/-- 42_cbc_engine.md R203, R206: `ENC`, from its issue through `1 + PLEN/16` core steps: `BUF[0 .. PLEN)` becomes its CBC encryption under `KEY` and
`IV_CONST`, the rest of the buffer and every other register stay, `CV` is the last ciphertext block and `RK` the key schedule. -/
def Obligations.EncRunsCbcEncrypt : Prop :=
  ∀ (s : State) (n : Nat), s.busy = false → 1 ≤ n → n ≤ 4 → s.plen.toNat = 16 * n →
    ∃ t u, exec .enc s = .next t ∧ coreSteps (1 + n) t = .next u ∧
      readBlocks u.buf n = cbcEncrypt s.key s.ivConst (readBlocks s.buf n) ∧
      (∀ x, 16 * n ≤ x → readByte u.buf x = readByte s.buf x) ∧ u.cv = readBlock u.buf (n - 1) ∧
      u.rk = keyExpansion s.key ∧ u.busy = false ∧
      u = { s with buf := u.buf, cv := u.cv, rk := u.rk, done := true, errcode := 0x00, fsm := u.fsm }

/-- 42_cbc_engine.md R205, R206: `DEC`, from its issue through `1 + PLEN/16` core steps: `BUF[0 .. PLEN)` becomes its CBC decryption; `CV` is the last
input block. -/
def Obligations.DecRunsCbcDecrypt : Prop :=
  ∀ (s : State) (n : Nat), s.busy = false → 1 ≤ n → n ≤ 4 → s.plen.toNat = 16 * n →
    ∃ t u, exec .dec s = .next t ∧ coreSteps (1 + n) t = .next u ∧
      readBlocks u.buf n = cbcDecrypt s.key s.ivConst (readBlocks s.buf n) ∧
      (∀ x, 16 * n ≤ x → readByte u.buf x = readByte s.buf x) ∧ u.cv = readBlock s.buf (n - 1) ∧
      u.rk = keyExpansion s.key ∧ u.busy = false ∧
      u = { s with buf := u.buf, cv := u.cv, rk := u.rk, done := true, errcode := 0x00, fsm := u.fsm }

/-- 42_cbc_engine.md R207: no retained context. Two idle blocks with the same `KEY`, `IV_CONST`, `PLEN` and `BUF[0 .. PLEN)` reach the same
`BUF[0 .. PLEN)` by `ENC`, and by `DEC`, whatever else they hold.
Taking the reference state machine, with its number of core steps, is the model's choice (log 11). -/
def Obligations.NoRetainedCipherContext : Prop :=
  ∀ (s₁ s₂ t₁ t₂ u₁ u₂ : State) (i : Instr) (n : Nat), i = .enc ∨ i = .dec → s₁.busy = false → s₂.busy = false →
    s₁.plen.toNat = 16 * n → s₂.plen = s₁.plen → s₂.key = s₁.key → s₂.ivConst = s₁.ivConst →
    (∀ x, x < 16 * n → readByte s₂.buf x = readByte s₁.buf x) →
    exec i s₁ = .next t₁ → exec i s₂ = .next t₂ → coreSteps (1 + n) t₁ = .next u₁ → coreSteps (1 + n) t₂ = .next u₂ →
    u₁.errcode = u₂.errcode ∧ ∀ x, x < 16 * n → readByte u₂.buf x = readByte u₁.buf x

/-- 42_cbc_engine.md R209: the fixed-IV consequence. Two `ENC` runs under the same key whose plaintexts agree on the first `k` blocks give
ciphertexts that agree on the first `k` blocks.
Taking the reference state machine, with its number of core steps, is the model's choice (log 11). -/
def Obligations.EqualPrefixesEncryptEqually : Prop :=
  ∀ (s₁ s₂ t₁ t₂ u₁ u₂ : State) (n₁ n₂ k : Nat), s₁.busy = false → s₂.busy = false →
    1 ≤ n₁ → n₁ ≤ 4 → 1 ≤ n₂ → n₂ ≤ 4 → s₁.plen.toNat = 16 * n₁ → s₂.plen.toNat = 16 * n₂ →
    s₂.key = s₁.key → s₂.ivConst = s₁.ivConst → k ≤ n₁ → k ≤ n₂ →
    (∀ x, x < 16 * k → readByte s₂.buf x = readByte s₁.buf x) →
    exec .enc s₁ = .next t₁ → exec .enc s₂ = .next t₂ →
    coreSteps (1 + n₁) t₁ = .next u₁ → coreSteps (1 + n₂) t₂ = .next u₂ →
    ∀ x, x < 16 * k → readByte u₂.buf x = readByte u₁.buf x

/-- 42_cbc_engine.md R210: error propagation. If only ciphertext block `j` changes, only plaintext blocks `j` and `j + 1` can change; block `j` becomes
the decryption of the new block, and block `j + 1` changes by the same exclusive-or difference. -/
def Obligations.DecryptionErrorsStayLocal : Prop :=
  ∀ (key iv c : Block) (blocks : List Block) (j : Nat), j < blocks.length →
    (∀ i, i ≠ j → i ≠ j + 1 → (cbcDecrypt key iv (blocks.set j c))[i]? = (cbcDecrypt key iv blocks)[i]?) ∧
    (cbcDecrypt key iv (blocks.set j c))[j]? =
      some (xorBlock (aesDecrypt (keyExpansion key) c) (if j = 0 then iv else blocks.getD (j - 1) zeroBlock)) ∧
    (∀ p, (cbcDecrypt key iv blocks)[j + 1]? = some p →
      (cbcDecrypt key iv (blocks.set j c))[j + 1]? = some (xorBlock p (xorBlock (blocks.getD j zeroBlock) c)))

/-- 42_cbc_engine.md R208: `ENC` and then `DEC` restore the buffer and never change `PLEN`, whatever host events come while the commands are busy and
however the core's turns fall among them, and whatever events that write neither `BUF` nor `KEY` nor `PLEN` nor `CMD` come between. -/
def Obligations.EncThenDecRestoresBuffer : Prop :=
  ∀ (s : State) (n : Nat) (es₁ es₂ es₃ rest : List Event), s.busy = false → 1 ≤ n → n ≤ 4 → s.plen.toNat = 16 * n →
    es₁.all isBusyPeriodEvent = true → es₁.count .core = n → es₂.all keepsCipherInput = true →
    es₃.all isBusyPeriodEvent = true → es₃.count .core = n →
    s.inputs = .write 0x50 0x03 :: (es₁ ++ .core :: (es₂ ++ .write 0x50 0x04 :: (es₃ ++ .core :: rest))) →
    ∃ u, runSteps (es₁.length + es₂.length + es₃.length + 4) s = .next u ∧ u.inputs = rest ∧
      u.busy = false ∧ u.errcode = 0x00 ∧ u.plen = s.plen ∧ ∀ x, readByte u.buf x = readByte s.buf x

/-- 42_cbc_engine.md R208, 70_reset_and_hazards.md R284: the Workflow. For every message of at most 63 bytes and every key, `PAD`, `ENC`, `DEC`, `UNPAD`, each run
to completion, give back the message and its length. -/
def Obligations.WorkflowRecoversMessage : Prop :=
  ∀ (s : State) (n : Nat) (rest : List Event), s.busy = false → s.mlen.toNat ≤ 63 → n = padLen s.mlen.toNat / 16 →
    s.inputs = .write 0x50 0x01 :: .core :: .write 0x50 0x03 :: (List.replicate (1 + n) .core ++
      .write 0x50 0x04 :: (List.replicate (1 + n) .core ++ .write 0x50 0x02 :: .core :: rest)) →
    ∃ u, runSteps (2 * n + 8) s = .next u ∧ u.inputs = rest ∧ u.busy = false ∧ u.done = true ∧
      u.errcode = 0x00 ∧ u.mlen = s.mlen ∧ ∀ x, x < s.mlen.toNat → readByte u.buf x = readByte s.buf x

/-! ### The whole machine -/

/-- 70_reset_and_hazards.md R289 (the numbers of the reference state machine, log 11): a command that its accept check let through stays busy for
exactly the rule's number of core steps, at most 5, and is then complete. -/
def Obligations.BusyCommandsCompleteInTime : Prop :=
  ∀ (i : Instr) (s t : State), s.busy = false → exec i s = .next t → t.busy = true →
    1 ≤ commandSteps i s ∧ commandSteps i s ≤ 5 ∧
      (∀ k, k < commandSteps i s → ∃ u, coreSteps k t = .next u ∧ u.busy = true ∧ u.done = false) ∧
      ∃ u, coreSteps (commandSteps i s) t = .next u ∧ u.busy = false ∧ u.done = true

/-- 20_memory.md R82, 42_cbc_engine.md R206: while a command is busy, no sequence of host accesses changes anything that the command or its result
depends on. -/
def Obligations.HostCannotDisturbBusyCommand : Prop :=
  ∀ (s : State) (es rest : List Event), s.busy = true → es.all isHostEvent = true → s.inputs = es ++ rest →
    ∃ t, runSteps es.length s = .next t ∧
      t = { s with inputs := rest, rdata := t.rdata, done := t.done, wbusy := t.wbusy, draws := t.draws }

/-- 00_scope.md R7: `IV_CONST` is fixed for the life of the hardware: no step changes it. -/
def Obligations.IvConstNeverChanges : Prop := ∀ s t : State, step s = .next t → t.ivConst = s.ivConst

/-- The state after reset, with any events to come, meets the block's invariant. -/
def Obligations.ResetMeetsInvariant : Prop := ∀ es : List Event, BlockInv { State.reset with inputs := es }

/-- 60_exceptions.md R250: from every state that meets the invariant, a step never faults and is never refused, and the next state meets
the invariant again: the buffer stays canonical, `CTRL`'s reserved bits stay 0, `ERRCODE` stays at most `0x04`, and a busy state machine
stays where its rules can go on. -/
def Obligations.StepKeepsInvariant : Prop := ∀ s : State, BlockInv s → ∃ t, step s = .next t ∧ BlockInv t

/-- 60_exceptions.md R250: from reset, whatever events come, no run of any length ever stops. -/
def Obligations.NoRunFromResetStops : Prop :=
  ∀ (es : List Event) (n : Nat), SafeRun n { State.reset with inputs := es }
end

