-- ==== Sys2Proof/Laws/Memory.lean ====
section
/-! SUPPORT. The laws of the working buffer: read after write, and that every operation keeps the canonical form. -/

namespace Sys2Proof.Machine

/-! ### One byte -/

theorem readByte_eraseCell (m : Memory) (a x : Nat) :
    readByte (eraseCell m a) x = if x = a then unlisted else readByte m x := by
  induction m with
  | nil => simp [eraseCell, readByte]
  | cons c rest ih =>
    obtain ⟨k, b⟩ := c
    by_cases hk : k = a
    · subst hk
      by_cases hx : x = k
      · subst hx; simpa [eraseCell] using ih
      · simp [eraseCell, readByte, ih, hx, Ne.symm hx]
    · by_cases hx : x = a
      · subst hx; simp [eraseCell, readByte, hk, ih]
      · simp [eraseCell, readByte, hk, ih, hx]

theorem readByte_insertCell_erased (m : Memory) (a x : Nat) (v : Byte) :
    readByte (insertCell (eraseCell m a) a v) x = if x = a then v else readByte m x := by
  induction m with
  | nil => simp [eraseCell, insertCell, readByte, eq_comm]
  | cons c rest ih =>
    obtain ⟨k, b⟩ := c
    by_cases hk : k = a
    · subst hk
      by_cases hx : x = k
      · subst hx; simpa [eraseCell] using ih
      · simp [eraseCell, readByte, ih, hx, Ne.symm hx]
    · by_cases hlt : a < k
      · by_cases hx : x = a
        · subst hx; simp [eraseCell, insertCell, readByte, hk, hlt]
        · simp [eraseCell, insertCell, readByte, hk, hlt, hx, Ne.symm hx, readByte_eraseCell]
      · by_cases hx : x = a
        · subst hx; simp [eraseCell, insertCell, readByte, hk, hlt, ih]
        · simp [eraseCell, insertCell, readByte, hk, hlt, ih, hx]

/-- Everything a one-byte store does to the bytes of the buffer. -/
theorem readByte_writeByte (m : Memory) (a x : Nat) (v : Byte) :
    readByte (writeByte m a v) x = if x = a then v else readByte m x := by
  unfold writeByte
  split
  · rename_i hv; rw [readByte_eraseCell, hv]
  · exact readByte_insertCell_erased m a x v

@[simp] theorem readByte_writeByte_same (m : Memory) (a : Nat) (v : Byte) : readByte (writeByte m a v) a = v := by
  simp [readByte_writeByte]

theorem readByte_writeByte_other (m : Memory) {a x : Nat} (v : Byte) (h : x ≠ a) :
    readByte (writeByte m a v) x = readByte m x := by
  simp [readByte_writeByte, h]

/-! ### The canonical form -/

@[simp] theorem wfFrom_nil (lo : Nat) : Memory.wfFrom lo [] = true := rfl

theorem wfFrom_cons (lo k : Nat) (b : Byte) (rest : Memory) :
    Memory.wfFrom lo ((k, b) :: rest) = true ↔
      lo ≤ k ∧ k < Config.bufCap ∧ b ≠ unlisted ∧ Memory.wfFrom (k + 1) rest = true := by
  simp [Memory.wfFrom, and_assoc]

theorem wfFrom_mono {lo lo' : Nat} {m : Memory} (h : Memory.wfFrom lo m = true) (hlo : lo' ≤ lo) :
    Memory.wfFrom lo' m = true := by
  cases m with
  | nil => rfl
  | cons c rest =>
    obtain ⟨k, b⟩ := c
    rw [wfFrom_cons] at h ⊢
    exact ⟨by omega, h.2⟩

theorem readByte_below {lo : Nat} {m : Memory} (h : Memory.wfFrom lo m = true) {x : Nat} (hx : x < lo) :
    readByte m x = unlisted := by
  induction m generalizing lo with
  | nil => rfl
  | cons c rest ih =>
    obtain ⟨k, b⟩ := c
    rw [wfFrom_cons] at h
    simp [readByte, show k ≠ x by omega, ih h.2.2.2 (show x < k + 1 by omega)]

theorem wfFrom_eraseCell {lo : Nat} {m : Memory} (a : Nat) (h : Memory.wfFrom lo m = true) :
    Memory.wfFrom lo (eraseCell m a) = true := by
  induction m generalizing lo with
  | nil => rfl
  | cons c rest ih =>
    obtain ⟨k, b⟩ := c
    rw [wfFrom_cons] at h
    by_cases hk : k = a
    · simpa [eraseCell, hk] using wfFrom_mono (ih h.2.2.2) (by omega : lo ≤ k + 1)
    · simp [eraseCell, hk, wfFrom_cons, h.1, h.2.1, h.2.2.1, ih h.2.2.2]

theorem wfFrom_insertCell_erased {lo : Nat} {m : Memory} {a : Nat} {v : Byte} (h : Memory.wfFrom lo m = true)
    (hlo : lo ≤ a) (ha : a < Config.bufCap) (hv : v ≠ unlisted) :
    Memory.wfFrom lo (insertCell (eraseCell m a) a v) = true := by
  induction m generalizing lo with
  | nil => simp [eraseCell, insertCell, wfFrom_cons, hlo, ha, hv]
  | cons c rest ih =>
    obtain ⟨k, b⟩ := c
    rw [wfFrom_cons] at h
    obtain ⟨h1, h2, h3, h4⟩ := h
    by_cases hk : k = a
    · simpa [eraseCell, hk] using ih (wfFrom_mono h4 (by omega : lo ≤ k + 1)) hlo
    · by_cases hlt : a < k
      · have h5 := wfFrom_eraseCell a h4
        have : a + 1 ≤ k := hlt
        simp [eraseCell, insertCell, hk, hlt, wfFrom_cons, hlo, ha, hv, h2, h3, h5, this]
      · have := ih h4 (by omega : k + 1 ≤ a)
        simp [eraseCell, insertCell, hk, hlt, wfFrom_cons, h1, h2, h3, this]

/-- A one-byte store inside the buffer keeps the canonical form. -/
theorem wf_writeByte {m : Memory} {a : Nat} (v : Byte) (h : m.wf = true) (ha : a < Config.bufCap) :
    (writeByte m a v).wf = true := by
  unfold writeByte
  split
  · exact wfFrom_eraseCell a h
  · rename_i hv; exact wfFrom_insertCell_erased h (Nat.zero_le a) ha hv

theorem wfFrom_ext {lo : Nat} {m m' : Memory} (h : Memory.wfFrom lo m = true) (h' : Memory.wfFrom lo m' = true)
    (heq : ∀ x, readByte m x = readByte m' x) : m = m' := by
  induction m generalizing lo m' with
  | nil =>
    cases m' with
    | nil => rfl
    | cons c rest =>
      obtain ⟨k, b⟩ := c
      rw [wfFrom_cons] at h'
      exact absurd (by simpa [readByte] using (heq k).symm) h'.2.2.1
  | cons c rest ih =>
    obtain ⟨k, b⟩ := c
    cases m' with
    | nil =>
      rw [wfFrom_cons] at h
      exact absurd (by simpa [readByte] using heq k) h.2.2.1
    | cons c' rest' =>
      obtain ⟨k', b'⟩ := c'
      rw [wfFrom_cons] at h h'
      have hkk : k = k' := by
        by_contra hne
        rcases Nat.lt_or_gt_of_ne hne with hlt | hlt
        · have h1 := heq k
          simp [readByte, Ne.symm hne, readByte_below h'.2.2.2 (show k < k' + 1 by omega)] at h1
          exact h.2.2.1 h1
        · have h1 := heq k'
          simp [readByte, hne, readByte_below h.2.2.2 (show k' < k + 1 by omega)] at h1
          exact h'.2.2.1 h1.symm
      subst hkk
      have hb : b = b' := by simpa [readByte] using heq k
      subst hb
      have : rest = rest' := by
        refine ih h.2.2.2 h'.2.2.2 fun x => ?_
        by_cases hx : k = x
        · subst hx
          rw [readByte_below h.2.2.2 (Nat.lt_succ_self k), readByte_below h'.2.2.2 (Nat.lt_succ_self k)]
        · simpa [readByte, hx] using heq x
      rw [this]

/-- Two canonical buffers that read alike are equal data. -/
theorem memory_ext {m m' : Memory} (h : m.wf = true) (h' : m'.wf = true) (heq : ∀ x, readByte m x = readByte m' x) :
    m = m' := wfFrom_ext h h' heq

/-- No byte outside `BUF[0..64)` is listed. -/
theorem readByte_outside {m : Memory} (h : m.wf = true) {x : Nat} (hx : Config.bufCap ≤ x) : readByte m x = unlisted := by
  unfold Memory.wf at h
  generalize 0 = lo at h
  induction m generalizing lo with
  | nil => rfl
  | cons c rest ih =>
    obtain ⟨k, b⟩ := c
    rw [wfFrom_cons] at h
    simp [readByte, show k ≠ x by omega, ih _ h.2.2.2]

/-! ### Sequences of bytes -/

@[simp] theorem memWrite_nil (m : Memory) (i : Nat) : memWrite m i [] = m := rfl

@[simp] theorem memWrite_cons (m : Memory) (i : Nat) (b : Byte) (rest : List Byte) :
    memWrite m i (b :: rest) = memWrite (writeByte m i b) (i + 1) rest := rfl

/-- Everything `MemWrite` does to the bytes of the buffer. -/
theorem readByte_memWrite (m : Memory) (i : Nat) (bytes : List Byte) (x : Nat) :
    readByte (memWrite m i bytes) x = if i ≤ x ∧ x < i + bytes.length then bytes.getD (x - i) 0 else readByte m x := by
  induction bytes generalizing m i with
  | nil => simp [show ¬(i ≤ x ∧ x < i) by omega]
  | cons b rest ih =>
    rw [memWrite_cons, ih, readByte_writeByte]
    by_cases hx : x = i
    · subst hx; simp
    · by_cases hin : i + 1 ≤ x ∧ x < i + 1 + rest.length
      · have h2 : i ≤ x ∧ x < i + (b :: rest).length := by simp only [List.length_cons]; omega
        have h3 : x - i = (x - (i + 1)) + 1 := by omega
        rw [if_pos hin, if_pos h2, h3, List.getD_cons_succ]
      · have h2 : ¬(i ≤ x ∧ x < i + (b :: rest).length) := by simp only [List.length_cons]; omega
        rw [if_neg hin, if_neg h2, if_neg hx]

theorem readByte_memWrite_outside (m : Memory) {i x : Nat} (bytes : List Byte) (h : x < i ∨ i + bytes.length ≤ x) :
    readByte (memWrite m i bytes) x = readByte m x := by
  rw [readByte_memWrite, if_neg (by omega)]

/-- `MemWrite` inside the buffer keeps the canonical form. -/
theorem wf_memWrite {m : Memory} {i : Nat} {bytes : List Byte} (h : m.wf = true) (hi : i + bytes.length ≤ Config.bufCap) :
    (memWrite m i bytes).wf = true := by
  induction bytes generalizing m i with
  | nil => exact h
  | cons b rest ih =>
    simp only [List.length_cons] at hi
    rw [memWrite_cons]
    exact ih (wf_writeByte b h (by omega)) (by omega)

@[simp] theorem length_memRead (m : Memory) (i n : Nat) : (memRead m i n).length = n := by simp [memRead]

/-! ### Blocks -/

@[simp] theorem getElem_blockOf (f : Fin 16 → Byte) (k : Nat) (hk : k < 16) : (blockOf f)[k] = f ⟨k, hk⟩ := by
  interval_cases k <;> rfl

theorem block_ext {a b : Block} (h : ∀ k : Fin 16, a[k.val] = b[k.val]) : a = b :=
  Vector.ext fun i hi => h ⟨i, hi⟩

@[simp] theorem getElem_xorBlock (a b : Block) (k : Nat) (hk : k < 16) : (xorBlock a b)[k] = a[k] ^^^ b[k] := by
  simp [xorBlock]

@[simp] theorem getElem_readBlock (m : Memory) (j k : Nat) (hk : k < 16) :
    (readBlock m j)[k] = readByte m (16 * j + k) := by
  simp [readBlock, Config.blockSize]

theorem xorBlock_cancel_right (a b : Block) : xorBlock (xorBlock a b) b = a :=
  block_ext fun k => by simp

theorem readByte_writeBlock (m : Memory) (j : Nat) (b : Block) (x : Nat) :
    readByte (writeBlock m j b) x = if h : 16 * j ≤ x ∧ x < 16 * j + 16 then b[x - 16 * j] else readByte m x := by
  unfold writeBlock
  rw [readByte_memWrite]
  by_cases h : 16 * j ≤ x ∧ x < 16 * j + 16
  · have hlt : x - 16 * j < 16 := by omega
    rw [dif_pos h, if_pos (by simpa [Config.blockSize] using h)]
    simp [Config.blockSize, List.getD_eq_getElem?_getD, hlt]
  · rw [dif_neg h, if_neg (by simpa [Config.blockSize] using h)]

@[simp] theorem readBlock_writeBlock_same (m : Memory) (j : Nat) (b : Block) : readBlock (writeBlock m j b) j = b :=
  block_ext fun k => by
    rw [getElem_readBlock, readByte_writeBlock, dif_pos (by omega)]
    simp

theorem readBlock_writeBlock_other (m : Memory) {j j' : Nat} (b : Block) (h : j' ≠ j) :
    readBlock (writeBlock m j b) j' = readBlock m j' :=
  block_ext fun k => by
    rw [getElem_readBlock, getElem_readBlock, readByte_writeBlock, dif_neg (by omega)]

theorem wf_writeBlock {m : Memory} {j : Nat} (b : Block) (h : m.wf = true) (hj : j < 4) : (writeBlock m j b).wf = true :=
  wf_memWrite h (by simp [Config.blockSize, Config.bufCap]; omega)

@[simp] theorem length_readBlocks (m : Memory) (n : Nat) : (readBlocks m n).length = n := by simp [readBlocks]

/-! ### Padding and clearing -/

theorem padValue_pos (m : Nat) : 1 ≤ padValue m := by unfold padValue Config.blockSize; omega

theorem padValue_le (m : Nat) : padValue m ≤ 16 := by unfold padValue Config.blockSize; omega

theorem add_padValue (m : Nat) : m + padValue m = padLen m := by unfold padValue padLen Config.blockSize; omega

theorem padLen_le {m : Nat} (h : m < 64) : padLen m ≤ 64 := by unfold padLen Config.blockSize; omega

@[simp] theorem length_rep (n : Nat) (b : Byte) : (rep n b).length = n := by simp [rep]

theorem getD_rep {n x : Nat} (b d : Byte) (h : x < n) : (rep n b).getD x d = b := by
  simp [rep, List.getD_eq_getElem?_getD, h]

end Sys2Proof.Machine
end

