-- ==== Sys2Proof/Laws/Aes.lean ====
section
/-! SUPPORT. The small laws of the AES definitions: cells of a state, additivity of the field product. -/

namespace Sys2Proof.Machine

@[simp] theorem cell_ofCells (f : Fin 4 → Fin 4 → Byte) (r c : Fin 4) : cell (ofCells f) r c = f r c := by
  fin_cases r <;> fin_cases c <;> rfl

/-- Two states with equal cells are equal (41_aes128_core.md R163). -/
theorem cell_ext {a b : Block} (h : ∀ r c : Fin 4, cell a r c = cell b r c) : a = b := by
  refine block_ext fun k => ?_
  have h1 := h ⟨k.val % 4, by omega⟩ ⟨k.val / 4, by omega⟩
  unfold cell at h1
  have h2 : k.val % 4 + 4 * (k.val / 4) = k.val := by omega
  simpa only [h2] using h1

@[simp] theorem cell_addRoundKey (s k : Block) (r c : Fin 4) : cell (addRoundKey s k) r c = cell s r c ^^^ cell k r c := by
  simp [addRoundKey, cell]

@[simp] theorem cell_subBytes (s : Block) (r c : Fin 4) : cell (subBytes s) r c = sbox (cell s r c) := cell_ofCells _ r c

@[simp] theorem cell_invSubBytes (s : Block) (r c : Fin 4) : cell (invSubBytes s) r c = invSbox (cell s r c) :=
  cell_ofCells _ r c

@[simp] theorem cell_shiftRows (s : Block) (r c : Fin 4) : cell (shiftRows s) r c = cell s r (c + r) := cell_ofCells _ r c

@[simp] theorem cell_invShiftRows (s : Block) (r c : Fin 4) : cell (invShiftRows s) r c = cell s r (c - r) :=
  cell_ofCells _ r c

/-- The field product is additive in its second argument (41_aes128_core.md R161). -/
theorem gfMulBits_xor (n : Nat) (a b c : Byte) : gfMulBits n a (b ^^^ c) = gfMulBits n a b ^^^ gfMulBits n a c := by
  induction n generalizing a b c with
  | zero => simp [gfMulBits]
  | succ n ih =>
    have hs : (b ^^^ c) >>> 1 = (b >>> 1) ^^^ (c >>> 1) := BitVec.ushiftRight_xor_distrib b c 1
    simp only [gfMulBits, hs, ih, BitVec.getLsbD_xor]
    generalize gfMulBits n (xtime a) (b >>> 1) = x
    generalize gfMulBits n (xtime a) (c >>> 1) = y
    cases b.getLsbD 0 <;> cases c.getLsbD 0
    · simp
    · simpa using (by ac_rfl : a ^^^ (x ^^^ y) = x ^^^ (a ^^^ y))
    · simpa using (by ac_rfl : a ^^^ (x ^^^ y) = a ^^^ x ^^^ y)
    · have h : a ^^^ x ^^^ (a ^^^ y) = (a ^^^ a) ^^^ (x ^^^ y) := by ac_rfl
      simp [h]

theorem gfMul_xor (a b c : Byte) : gfMul a (b ^^^ c) = gfMul a b ^^^ gfMul a c := gfMulBits_xor 8 a b c

@[simp] theorem gfMul_one (a : Byte) : gfMul 0x01#8 a = a := by
  revert a
  decide +kernel

@[simp] theorem length_cbcEncryptFrom (rk : RoundKeys) (prev : Block) (plain : List Block) :
    (cbcEncryptFrom rk prev plain).length = plain.length := by
  induction plain generalizing prev with
  | nil => rfl
  | cons p rest ih => simp [cbcEncryptFrom, ih]

@[simp] theorem length_cbcDecryptFrom (rk : RoundKeys) (prev : Block) (cipher : List Block) :
    (cbcDecryptFrom rk prev cipher).length = cipher.length := by
  induction cipher generalizing prev with
  | nil => rfl
  | cons c rest ih => simp [cbcDecryptFrom, ih]

end Sys2Proof.Machine
end

