-- ==== Sys2Proof/Laws/State.lean ====
section
/-! SUPPORT. One lemma per field per named update of the state, each true by rfl, so that no later proof unfolds a
record update; and the bit `BUSY` after each. -/

namespace Sys2Proof.Machine

/-! ### `complete` (60_exceptions.md R252) -/

@[simp] theorem complete_buf (c : ErrCode) (s : State) : (complete c s).buf = s.buf := rfl
@[simp] theorem complete_key (c : ErrCode) (s : State) : (complete c s).key = s.key := rfl
@[simp] theorem complete_mlen (c : ErrCode) (s : State) : (complete c s).mlen = s.mlen := rfl
@[simp] theorem complete_plen (c : ErrCode) (s : State) : (complete c s).plen = s.plen := rfl
@[simp] theorem complete_ctrl (c : ErrCode) (s : State) : (complete c s).ctrl = s.ctrl := rfl
@[simp] theorem complete_done (c : ErrCode) (s : State) : (complete c s).done = true := rfl
@[simp] theorem complete_wbusy (c : ErrCode) (s : State) : (complete c s).wbusy = s.wbusy := rfl
@[simp] theorem complete_errcode (c : ErrCode) (s : State) : (complete c s).errcode = c.code := rfl
@[simp] theorem complete_fsm (c : ErrCode) (s : State) : (complete c s).fsm = { s.fsm with mode := .idle } := rfl
@[simp] theorem complete_cv (c : ErrCode) (s : State) : (complete c s).cv = s.cv := rfl
@[simp] theorem complete_rk (c : ErrCode) (s : State) : (complete c s).rk = s.rk := rfl
@[simp] theorem complete_ivConst (c : ErrCode) (s : State) : (complete c s).ivConst = s.ivConst := rfl
@[simp] theorem complete_inputs (c : ErrCode) (s : State) : (complete c s).inputs = s.inputs := rfl
@[simp] theorem complete_rdata (c : ErrCode) (s : State) : (complete c s).rdata = s.rdata := rfl
@[simp] theorem complete_draws (c : ErrCode) (s : State) : (complete c s).draws = s.draws := rfl
@[simp] theorem complete_busy (c : ErrCode) (s : State) : (complete c s).busy = false := rfl

/-! ### `beginIssue` (30_encoding.md R106) -/

@[simp] theorem beginIssue_buf (s : State) : (beginIssue s).buf = s.buf := rfl
@[simp] theorem beginIssue_key (s : State) : (beginIssue s).key = s.key := rfl
@[simp] theorem beginIssue_mlen (s : State) : (beginIssue s).mlen = s.mlen := rfl
@[simp] theorem beginIssue_plen (s : State) : (beginIssue s).plen = s.plen := rfl
@[simp] theorem beginIssue_ctrl (s : State) : (beginIssue s).ctrl = s.ctrl := rfl
@[simp] theorem beginIssue_done (s : State) : (beginIssue s).done = false := rfl
@[simp] theorem beginIssue_wbusy (s : State) : (beginIssue s).wbusy = s.wbusy := rfl
@[simp] theorem beginIssue_errcode (s : State) : (beginIssue s).errcode = 0x00 := rfl
@[simp] theorem beginIssue_fsm (s : State) : (beginIssue s).fsm = s.fsm := rfl
@[simp] theorem beginIssue_cv (s : State) : (beginIssue s).cv = s.cv := rfl
@[simp] theorem beginIssue_rk (s : State) : (beginIssue s).rk = s.rk := rfl
@[simp] theorem beginIssue_ivConst (s : State) : (beginIssue s).ivConst = s.ivConst := rfl
@[simp] theorem beginIssue_inputs (s : State) : (beginIssue s).inputs = s.inputs := rfl
@[simp] theorem beginIssue_rdata (s : State) : (beginIssue s).rdata = s.rdata := rfl
@[simp] theorem beginIssue_draws (s : State) : (beginIssue s).draws = s.draws := rfl
@[simp] theorem beginIssue_busy (s : State) : (beginIssue s).busy = s.busy := rfl

/-! ### `start` (30_encoding.md R107) -/

@[simp] theorem start_buf (op : Op) (ph : Phase) (n : Nat) (s : State) : (start op ph n s).buf = s.buf := rfl
@[simp] theorem start_key (op : Op) (ph : Phase) (n : Nat) (s : State) : (start op ph n s).key = s.key := rfl
@[simp] theorem start_mlen (op : Op) (ph : Phase) (n : Nat) (s : State) : (start op ph n s).mlen = s.mlen := rfl
@[simp] theorem start_plen (op : Op) (ph : Phase) (n : Nat) (s : State) : (start op ph n s).plen = s.plen := rfl
@[simp] theorem start_ctrl (op : Op) (ph : Phase) (n : Nat) (s : State) : (start op ph n s).ctrl = s.ctrl := rfl
@[simp] theorem start_done (op : Op) (ph : Phase) (n : Nat) (s : State) : (start op ph n s).done = s.done := rfl
@[simp] theorem start_wbusy (op : Op) (ph : Phase) (n : Nat) (s : State) : (start op ph n s).wbusy = s.wbusy := rfl
@[simp] theorem start_errcode (op : Op) (ph : Phase) (n : Nat) (s : State) :
    (start op ph n s).errcode = s.errcode := rfl
@[simp] theorem start_fsm (op : Op) (ph : Phase) (n : Nat) (s : State) :
    (start op ph n s).fsm = { mode := .busy, op := op, phase := ph, j := 0, nblk := n } := rfl
@[simp] theorem start_cv (op : Op) (ph : Phase) (n : Nat) (s : State) : (start op ph n s).cv = s.cv := rfl
@[simp] theorem start_rk (op : Op) (ph : Phase) (n : Nat) (s : State) : (start op ph n s).rk = s.rk := rfl
@[simp] theorem start_ivConst (op : Op) (ph : Phase) (n : Nat) (s : State) :
    (start op ph n s).ivConst = s.ivConst := rfl
@[simp] theorem start_inputs (op : Op) (ph : Phase) (n : Nat) (s : State) : (start op ph n s).inputs = s.inputs := rfl
@[simp] theorem start_rdata (op : Op) (ph : Phase) (n : Nat) (s : State) : (start op ph n s).rdata = s.rdata := rfl
@[simp] theorem start_draws (op : Op) (ph : Phase) (n : Nat) (s : State) : (start op ph n s).draws = s.draws := rfl
@[simp] theorem start_busy (op : Op) (ph : Phase) (n : Nat) (s : State) : (start op ph n s).busy = true := rfl

/-! ### `startRun` (30_encoding.md R107) -/

@[simp] theorem startRun_buf (op : Op) (s : State) : (startRun op s).buf = s.buf := rfl
@[simp] theorem startRun_key (op : Op) (s : State) : (startRun op s).key = s.key := rfl
@[simp] theorem startRun_mlen (op : Op) (s : State) : (startRun op s).mlen = s.mlen := rfl
@[simp] theorem startRun_plen (op : Op) (s : State) : (startRun op s).plen = s.plen := rfl
@[simp] theorem startRun_ctrl (op : Op) (s : State) : (startRun op s).ctrl = s.ctrl := rfl
@[simp] theorem startRun_done (op : Op) (s : State) : (startRun op s).done = s.done := rfl
@[simp] theorem startRun_wbusy (op : Op) (s : State) : (startRun op s).wbusy = s.wbusy := rfl
@[simp] theorem startRun_errcode (op : Op) (s : State) : (startRun op s).errcode = s.errcode := rfl
@[simp] theorem startRun_fsm (op : Op) (s : State) :
    (startRun op s).fsm = { mode := .busy, op := op, phase := .run, j := 0, nblk := Config.anyNblk s.draws } := rfl
@[simp] theorem startRun_cv (op : Op) (s : State) : (startRun op s).cv = s.cv := rfl
@[simp] theorem startRun_rk (op : Op) (s : State) : (startRun op s).rk = s.rk := rfl
@[simp] theorem startRun_ivConst (op : Op) (s : State) : (startRun op s).ivConst = s.ivConst := rfl
@[simp] theorem startRun_inputs (op : Op) (s : State) : (startRun op s).inputs = s.inputs := rfl
@[simp] theorem startRun_rdata (op : Op) (s : State) : (startRun op s).rdata = s.rdata := rfl
@[simp] theorem startRun_draws (op : Op) (s : State) : (startRun op s).draws = s.draws + 1 := rfl
@[simp] theorem startRun_busy (op : Op) (s : State) : (startRun op s).busy = true := rfl

/-! ### `dropWrite` (20_memory.md R82) -/

@[simp] theorem dropWrite_buf (s : State) : (dropWrite s).buf = s.buf := rfl
@[simp] theorem dropWrite_key (s : State) : (dropWrite s).key = s.key := rfl
@[simp] theorem dropWrite_mlen (s : State) : (dropWrite s).mlen = s.mlen := rfl
@[simp] theorem dropWrite_plen (s : State) : (dropWrite s).plen = s.plen := rfl
@[simp] theorem dropWrite_ctrl (s : State) : (dropWrite s).ctrl = s.ctrl := rfl
@[simp] theorem dropWrite_done (s : State) : (dropWrite s).done = s.done := rfl
@[simp] theorem dropWrite_wbusy (s : State) : (dropWrite s).wbusy = true := rfl
@[simp] theorem dropWrite_errcode (s : State) : (dropWrite s).errcode = s.errcode := rfl
@[simp] theorem dropWrite_fsm (s : State) : (dropWrite s).fsm = s.fsm := rfl
@[simp] theorem dropWrite_cv (s : State) : (dropWrite s).cv = s.cv := rfl
@[simp] theorem dropWrite_rk (s : State) : (dropWrite s).rk = s.rk := rfl
@[simp] theorem dropWrite_ivConst (s : State) : (dropWrite s).ivConst = s.ivConst := rfl
@[simp] theorem dropWrite_inputs (s : State) : (dropWrite s).inputs = s.inputs := rfl
@[simp] theorem dropWrite_rdata (s : State) : (dropWrite s).rdata = s.rdata := rfl
@[simp] theorem dropWrite_draws (s : State) : (dropWrite s).draws = s.draws := rfl
@[simp] theorem dropWrite_busy (s : State) : (dropWrite s).busy = s.busy := rfl

/-! ### `clearStatus` (20_memory.md R74) -/

@[simp] theorem clearStatus_buf (v : Byte) (s : State) : (clearStatus v s).buf = s.buf := rfl
@[simp] theorem clearStatus_key (v : Byte) (s : State) : (clearStatus v s).key = s.key := rfl
@[simp] theorem clearStatus_mlen (v : Byte) (s : State) : (clearStatus v s).mlen = s.mlen := rfl
@[simp] theorem clearStatus_plen (v : Byte) (s : State) : (clearStatus v s).plen = s.plen := rfl
@[simp] theorem clearStatus_ctrl (v : Byte) (s : State) : (clearStatus v s).ctrl = s.ctrl := rfl
@[simp] theorem clearStatus_done (v : Byte) (s : State) : (clearStatus v s).done = (s.done && !v.getLsbD 1) := rfl
@[simp] theorem clearStatus_wbusy (v : Byte) (s : State) : (clearStatus v s).wbusy = (s.wbusy && !v.getLsbD 3) := rfl
@[simp] theorem clearStatus_errcode (v : Byte) (s : State) : (clearStatus v s).errcode = s.errcode := rfl
@[simp] theorem clearStatus_fsm (v : Byte) (s : State) : (clearStatus v s).fsm = s.fsm := rfl
@[simp] theorem clearStatus_cv (v : Byte) (s : State) : (clearStatus v s).cv = s.cv := rfl
@[simp] theorem clearStatus_rk (v : Byte) (s : State) : (clearStatus v s).rk = s.rk := rfl
@[simp] theorem clearStatus_ivConst (v : Byte) (s : State) : (clearStatus v s).ivConst = s.ivConst := rfl
@[simp] theorem clearStatus_inputs (v : Byte) (s : State) : (clearStatus v s).inputs = s.inputs := rfl
@[simp] theorem clearStatus_rdata (v : Byte) (s : State) : (clearStatus v s).rdata = s.rdata := rfl
@[simp] theorem clearStatus_draws (v : Byte) (s : State) : (clearStatus v s).draws = s.draws := rfl
@[simp] theorem clearStatus_busy (v : Byte) (s : State) : (clearStatus v s).busy = s.busy := rfl

/-! ### `keyExpandStep` (42_cbc_engine.md R203, R205) -/

@[simp] theorem keyExpandStep_buf (s : State) : (keyExpandStep s).buf = s.buf := rfl
@[simp] theorem keyExpandStep_key (s : State) : (keyExpandStep s).key = s.key := rfl
@[simp] theorem keyExpandStep_mlen (s : State) : (keyExpandStep s).mlen = s.mlen := rfl
@[simp] theorem keyExpandStep_plen (s : State) : (keyExpandStep s).plen = s.plen := rfl
@[simp] theorem keyExpandStep_ctrl (s : State) : (keyExpandStep s).ctrl = s.ctrl := rfl
@[simp] theorem keyExpandStep_done (s : State) : (keyExpandStep s).done = s.done := rfl
@[simp] theorem keyExpandStep_wbusy (s : State) : (keyExpandStep s).wbusy = s.wbusy := rfl
@[simp] theorem keyExpandStep_errcode (s : State) : (keyExpandStep s).errcode = s.errcode := rfl
@[simp] theorem keyExpandStep_fsm (s : State) : (keyExpandStep s).fsm = { s.fsm with j := 0, phase := .blk } := rfl
@[simp] theorem keyExpandStep_cv (s : State) : (keyExpandStep s).cv = s.ivConst := rfl
@[simp] theorem keyExpandStep_rk (s : State) : (keyExpandStep s).rk = keyExpansion s.key := rfl
@[simp] theorem keyExpandStep_ivConst (s : State) : (keyExpandStep s).ivConst = s.ivConst := rfl
@[simp] theorem keyExpandStep_inputs (s : State) : (keyExpandStep s).inputs = s.inputs := rfl
@[simp] theorem keyExpandStep_rdata (s : State) : (keyExpandStep s).rdata = s.rdata := rfl
@[simp] theorem keyExpandStep_draws (s : State) : (keyExpandStep s).draws = s.draws := rfl
@[simp] theorem keyExpandStep_busy (s : State) : (keyExpandStep s).busy = s.busy := rfl

/-! ### `zeroized` (43_control_cmds.md R231) -/

@[simp] theorem zeroized_buf (s : State) : (zeroized s).buf = clearBuffer s.buf := rfl
@[simp] theorem zeroized_key (s : State) : (zeroized s).key = zeroBlock := rfl
@[simp] theorem zeroized_mlen (s : State) : (zeroized s).mlen = 0x00 := rfl
@[simp] theorem zeroized_plen (s : State) : (zeroized s).plen = 0x00 := rfl
@[simp] theorem zeroized_ctrl (s : State) : (zeroized s).ctrl = s.ctrl := rfl
@[simp] theorem zeroized_done (s : State) : (zeroized s).done = s.done := rfl
@[simp] theorem zeroized_wbusy (s : State) : (zeroized s).wbusy = s.wbusy := rfl
@[simp] theorem zeroized_errcode (s : State) : (zeroized s).errcode = s.errcode := rfl
@[simp] theorem zeroized_fsm (s : State) : (zeroized s).fsm = s.fsm := rfl
@[simp] theorem zeroized_cv (s : State) : (zeroized s).cv = zeroBlock := rfl
@[simp] theorem zeroized_rk (s : State) : (zeroized s).rk = zeroKeys := rfl
@[simp] theorem zeroized_ivConst (s : State) : (zeroized s).ivConst = s.ivConst := rfl
@[simp] theorem zeroized_inputs (s : State) : (zeroized s).inputs = s.inputs := rfl
@[simp] theorem zeroized_rdata (s : State) : (zeroized s).rdata = s.rdata := rfl
@[simp] theorem zeroized_draws (s : State) : (zeroized s).draws = s.draws := rfl
@[simp] theorem zeroized_busy (s : State) : (zeroized s).busy = s.busy := rfl

/-! ### `clearRdata` (log 4) -/

@[simp] theorem clearRdata_buf (s : State) : (clearRdata s).buf = s.buf := rfl
@[simp] theorem clearRdata_key (s : State) : (clearRdata s).key = s.key := rfl
@[simp] theorem clearRdata_mlen (s : State) : (clearRdata s).mlen = s.mlen := rfl
@[simp] theorem clearRdata_plen (s : State) : (clearRdata s).plen = s.plen := rfl
@[simp] theorem clearRdata_ctrl (s : State) : (clearRdata s).ctrl = s.ctrl := rfl
@[simp] theorem clearRdata_done (s : State) : (clearRdata s).done = s.done := rfl
@[simp] theorem clearRdata_wbusy (s : State) : (clearRdata s).wbusy = s.wbusy := rfl
@[simp] theorem clearRdata_errcode (s : State) : (clearRdata s).errcode = s.errcode := rfl
@[simp] theorem clearRdata_fsm (s : State) : (clearRdata s).fsm = s.fsm := rfl
@[simp] theorem clearRdata_cv (s : State) : (clearRdata s).cv = s.cv := rfl
@[simp] theorem clearRdata_rk (s : State) : (clearRdata s).rk = s.rk := rfl
@[simp] theorem clearRdata_ivConst (s : State) : (clearRdata s).ivConst = s.ivConst := rfl
@[simp] theorem clearRdata_inputs (s : State) : (clearRdata s).inputs = s.inputs := rfl
@[simp] theorem clearRdata_rdata (s : State) : (clearRdata s).rdata = none := rfl
@[simp] theorem clearRdata_draws (s : State) : (clearRdata s).draws = s.draws := rfl
@[simp] theorem clearRdata_busy (s : State) : (clearRdata s).busy = s.busy := rfl

/-! ### `takeEvent` (log 1, 4) -/

@[simp] theorem takeEvent_buf (rest : List Event) (s : State) : (takeEvent rest s).buf = s.buf := rfl
@[simp] theorem takeEvent_key (rest : List Event) (s : State) : (takeEvent rest s).key = s.key := rfl
@[simp] theorem takeEvent_mlen (rest : List Event) (s : State) : (takeEvent rest s).mlen = s.mlen := rfl
@[simp] theorem takeEvent_plen (rest : List Event) (s : State) : (takeEvent rest s).plen = s.plen := rfl
@[simp] theorem takeEvent_ctrl (rest : List Event) (s : State) : (takeEvent rest s).ctrl = s.ctrl := rfl
@[simp] theorem takeEvent_done (rest : List Event) (s : State) : (takeEvent rest s).done = s.done := rfl
@[simp] theorem takeEvent_wbusy (rest : List Event) (s : State) : (takeEvent rest s).wbusy = s.wbusy := rfl
@[simp] theorem takeEvent_errcode (rest : List Event) (s : State) : (takeEvent rest s).errcode = s.errcode := rfl
@[simp] theorem takeEvent_fsm (rest : List Event) (s : State) : (takeEvent rest s).fsm = s.fsm := rfl
@[simp] theorem takeEvent_cv (rest : List Event) (s : State) : (takeEvent rest s).cv = s.cv := rfl
@[simp] theorem takeEvent_rk (rest : List Event) (s : State) : (takeEvent rest s).rk = s.rk := rfl
@[simp] theorem takeEvent_ivConst (rest : List Event) (s : State) : (takeEvent rest s).ivConst = s.ivConst := rfl
@[simp] theorem takeEvent_inputs (rest : List Event) (s : State) : (takeEvent rest s).inputs = rest := rfl
@[simp] theorem takeEvent_rdata (rest : List Event) (s : State) : (takeEvent rest s).rdata = none := rfl
@[simp] theorem takeEvent_draws (rest : List Event) (s : State) : (takeEvent rest s).draws = s.draws := rfl
@[simp] theorem takeEvent_busy (rest : List Event) (s : State) : (takeEvent rest s).busy = s.busy := rfl

/-! ### `hostRead` (20_memory.md R73) -/

@[simp] theorem hostRead_buf (a : Byte) (s : State) : (hostRead a s).buf = s.buf := rfl
@[simp] theorem hostRead_key (a : Byte) (s : State) : (hostRead a s).key = s.key := rfl
@[simp] theorem hostRead_mlen (a : Byte) (s : State) : (hostRead a s).mlen = s.mlen := rfl
@[simp] theorem hostRead_plen (a : Byte) (s : State) : (hostRead a s).plen = s.plen := rfl
@[simp] theorem hostRead_ctrl (a : Byte) (s : State) : (hostRead a s).ctrl = s.ctrl := rfl
@[simp] theorem hostRead_done (a : Byte) (s : State) : (hostRead a s).done = s.done := rfl
@[simp] theorem hostRead_wbusy (a : Byte) (s : State) : (hostRead a s).wbusy = s.wbusy := rfl
@[simp] theorem hostRead_errcode (a : Byte) (s : State) : (hostRead a s).errcode = s.errcode := rfl
@[simp] theorem hostRead_fsm (a : Byte) (s : State) : (hostRead a s).fsm = s.fsm := rfl
@[simp] theorem hostRead_cv (a : Byte) (s : State) : (hostRead a s).cv = s.cv := rfl
@[simp] theorem hostRead_rk (a : Byte) (s : State) : (hostRead a s).rk = s.rk := rfl
@[simp] theorem hostRead_ivConst (a : Byte) (s : State) : (hostRead a s).ivConst = s.ivConst := rfl
@[simp] theorem hostRead_inputs (a : Byte) (s : State) : (hostRead a s).inputs = s.inputs := rfl
@[simp] theorem hostRead_rdata (a : Byte) (s : State) : (hostRead a s).rdata = some (busRead a s) := rfl
@[simp] theorem hostRead_draws (a : Byte) (s : State) : (hostRead a s).draws = s.draws + readDraws a s := rfl
@[simp] theorem hostRead_busy (a : Byte) (s : State) : (hostRead a s).busy = s.busy := rfl

/-! ### `writeKey` (20_memory.md R74) -/

@[simp] theorem writeKey_buf (i : Fin 16) (v : Byte) (s : State) : (writeKey i v s).buf = s.buf := rfl
@[simp] theorem writeKey_key (i : Fin 16) (v : Byte) (s : State) : (writeKey i v s).key = s.key.set i.val v := rfl
@[simp] theorem writeKey_mlen (i : Fin 16) (v : Byte) (s : State) : (writeKey i v s).mlen = s.mlen := rfl
@[simp] theorem writeKey_plen (i : Fin 16) (v : Byte) (s : State) : (writeKey i v s).plen = s.plen := rfl
@[simp] theorem writeKey_ctrl (i : Fin 16) (v : Byte) (s : State) : (writeKey i v s).ctrl = s.ctrl := rfl
@[simp] theorem writeKey_done (i : Fin 16) (v : Byte) (s : State) : (writeKey i v s).done = s.done := rfl
@[simp] theorem writeKey_wbusy (i : Fin 16) (v : Byte) (s : State) : (writeKey i v s).wbusy = s.wbusy := rfl
@[simp] theorem writeKey_errcode (i : Fin 16) (v : Byte) (s : State) : (writeKey i v s).errcode = s.errcode := rfl
@[simp] theorem writeKey_fsm (i : Fin 16) (v : Byte) (s : State) : (writeKey i v s).fsm = s.fsm := rfl
@[simp] theorem writeKey_cv (i : Fin 16) (v : Byte) (s : State) : (writeKey i v s).cv = s.cv := rfl
@[simp] theorem writeKey_rk (i : Fin 16) (v : Byte) (s : State) : (writeKey i v s).rk = s.rk := rfl
@[simp] theorem writeKey_ivConst (i : Fin 16) (v : Byte) (s : State) : (writeKey i v s).ivConst = s.ivConst := rfl
@[simp] theorem writeKey_inputs (i : Fin 16) (v : Byte) (s : State) : (writeKey i v s).inputs = s.inputs := rfl
@[simp] theorem writeKey_rdata (i : Fin 16) (v : Byte) (s : State) : (writeKey i v s).rdata = s.rdata := rfl
@[simp] theorem writeKey_draws (i : Fin 16) (v : Byte) (s : State) : (writeKey i v s).draws = s.draws := rfl
@[simp] theorem writeKey_busy (i : Fin 16) (v : Byte) (s : State) : (writeKey i v s).busy = s.busy := rfl

/-! ### `applyReset` (70_reset_and_hazards.md R280) -/

@[simp] theorem applyReset_buf (s : State) : (applyReset s).buf = [] := rfl
@[simp] theorem applyReset_key (s : State) : (applyReset s).key = zeroBlock := rfl
@[simp] theorem applyReset_mlen (s : State) : (applyReset s).mlen = 0x00 := rfl
@[simp] theorem applyReset_plen (s : State) : (applyReset s).plen = 0x00 := rfl
@[simp] theorem applyReset_ctrl (s : State) : (applyReset s).ctrl = 0x00 := rfl
@[simp] theorem applyReset_done (s : State) : (applyReset s).done = false := rfl
@[simp] theorem applyReset_wbusy (s : State) : (applyReset s).wbusy = false := rfl
@[simp] theorem applyReset_errcode (s : State) : (applyReset s).errcode = 0x00 := rfl
@[simp] theorem applyReset_fsm (s : State) : (applyReset s).fsm = State.reset.fsm := rfl
@[simp] theorem applyReset_cv (s : State) : (applyReset s).cv = State.reset.cv := rfl
@[simp] theorem applyReset_rk (s : State) : (applyReset s).rk = State.reset.rk := rfl
@[simp] theorem applyReset_ivConst (s : State) : (applyReset s).ivConst = s.ivConst := rfl
@[simp] theorem applyReset_inputs (s : State) : (applyReset s).inputs = s.inputs := rfl
@[simp] theorem applyReset_rdata (s : State) : (applyReset s).rdata = none := rfl
@[simp] theorem applyReset_draws (s : State) : (applyReset s).draws = s.draws := rfl
@[simp] theorem applyReset_busy (s : State) : (applyReset s).busy = false := rfl

end Sys2Proof.Machine
end

