-- ==== Sys2Proof/Laws/Ops.lean ====
section
/-! SUPPORT. One lemma per shared operation that says everything it can do: issue, the core steps, the bus, one step. -/

namespace Sys2Proof.Machine

/-! ### Issue -/

theorem whenIdle_busy {s : State} (act : State → State) (h : s.busy = true) : whenIdle act s = dropWrite s := by
  simp [whenIdle, h]

theorem whenIdle_idle {s : State} (act : State → State) (h : s.busy = false) : whenIdle act s = act s := by
  simp [whenIdle, h]

theorem issueWith_busy {s : State} (accept : State → State) (h : s.busy = true) : issueWith accept s = dropWrite s :=
  whenIdle_busy _ h

theorem issueWith_idle {s : State} (accept : State → State) (h : s.busy = false) :
    issueWith accept s = accept (beginIssue s) := whenIdle_idle _ h

/-- The accept routine of each command (40_padder.md R131, R133; 42_cbc_engine.md R202, R204; 43_control_cmds.md R230, R231). -/
def acceptOf (i : Instr) : State → State :=
  match i with
  | .nop => complete .none
  | .pad => padAccept
  | .unpad => unpadAccept
  | .enc => cipherAccept .enc
  | .dec => cipherAccept .dec
  | .zeroize => startRun .zeroize

/-- `exec` always answers a next state: the issue of the command's accept routine. -/
theorem exec_eq (i : Instr) (s : State) : exec i s = .next (issueWith (acceptOf i) s) := by cases i <;> rfl

/-- While busy, every command is dropped (20_memory.md R82). -/
theorem exec_busy (i : Instr) {s : State} (h : s.busy = true) : exec i s = .next (dropWrite s) := by
  rw [exec_eq, issueWith_busy _ h]

/-- While idle, a command is issued (30_encoding.md R106). -/
theorem exec_idle (i : Instr) {s : State} (h : s.busy = false) : exec i s = .next (acceptOf i (beginIssue s)) := by
  rw [exec_eq, issueWith_idle _ h]

/-- An accept routine completes at once or starts the state machine (30_encoding.md R106). -/
theorem acceptOf_cases (i : Instr) (s : State) :
    (∃ c, acceptOf i s = complete c s) ∨ (∃ op, acceptOf i s = startRun op s) ∨
      ∃ op, cipherLen s.plen = true ∧ acceptOf i s = start op .kexp (blockCount s.plen) s := by
  cases i with
  | nop => exact .inl ⟨_, rfl⟩
  | pad =>
    by_cases h : 64 ≤ s.mlen.toNat
    · exact .inl ⟨_, if_pos h⟩
    · exact .inr (.inl ⟨_, if_neg h⟩)
  | unpad =>
    by_cases h : 64 < s.plen.toNat
    · exact .inl ⟨_, if_pos h⟩
    · exact .inr (.inl ⟨_, if_neg h⟩)
  | enc =>
    by_cases h : cipherLen s.plen = true
    · exact .inr (.inr ⟨_, h, if_pos h⟩)
    · exact .inl ⟨_, if_neg h⟩
  | dec =>
    by_cases h : cipherLen s.plen = true
    · exact .inr (.inr ⟨_, h, if_pos h⟩)
    · exact .inl ⟨_, if_neg h⟩
  | zeroize => exact .inr (.inl ⟨_, rfl⟩)

/-! ### Core steps -/

theorem coreStep_idle {s : State} (h : s.busy = false) : coreStep s = .next s := by simp [coreStep, h]

theorem coreStep_busy {s : State} (h : s.busy = true) : coreStep s = busyStep s := by simp [coreStep, h]

theorem withinBuffer_iff (i n : Nat) : withinBuffer i n = true ↔ i + n ≤ 64 := by simp [withinBuffer, Config.bufCap]

/-- The core step of a `PAD` that its accept check let through (40_padder.md R132). -/
theorem padStep_eq {s : State} (h : s.mlen.toNat < 64) :
    padStep s = .next (complete .none { s with
      buf := padBuffer s.buf s.mlen.toNat
      plen := BitVec.ofNat 8 (s.mlen.toNat + padValue s.mlen.toNat) }) := by
  have hw : withinBuffer s.mlen.toNat (padValue s.mlen.toNat) = true := by
    rw [withinBuffer_iff, add_padValue]
    exact padLen_le h
  simp only [padStep, hw, if_true]

/-- The core step of an `UNPAD` that its accept check let through (40_padder.md R135). -/
theorem unpadStep_eq {s : State} (h : s.plen.toNat ≤ 64) :
    unpadStep s =
      if padOK s.plen.toNat s.buf s.strict = true then
        .next (complete .none { s with mlen := BitVec.ofNat 8 (s.plen.toNat - (padByte s.plen.toNat s.buf).toNat) })
      else .next (complete .paddingError s) := by
  have hw : withinBuffer 0 s.plen.toNat = true := by
    rw [withinBuffer_iff]
    omega
  simp only [unpadStep, hw, if_true]

/-- A block step of `ENC` inside the buffer (42_cbc_engine.md R203). -/
theorem encStep_blk {s : State} (hp : s.fsm.phase = .blk) (hj : s.fsm.j < 4) :
    encStep s = .next (finishBlock (encBlock s) (encBlock s) s) := by
  have hw : withinBuffer (Config.blockSize * s.fsm.j) Config.blockSize = true := by
    rw [withinBuffer_iff]
    simp only [Config.blockSize]
    omega
  simp only [encStep, hp, hw, if_true]

/-- A block step of `DEC` inside the buffer (42_cbc_engine.md R205). -/
theorem decStep_blk {s : State} (hp : s.fsm.phase = .blk) (hj : s.fsm.j < 4) :
    decStep s = .next (finishBlock (decBlock s) (readBlock s.buf s.fsm.j) s) := by
  have hw : withinBuffer (Config.blockSize * s.fsm.j) Config.blockSize = true := by
    rw [withinBuffer_iff]
    simp only [Config.blockSize]
    omega
  simp only [decStep, hp, hw, if_true]

/-- Everything a core step of `PAD` can do (40_padder.md R132). -/
theorem padStep_next {s t : State} (h : padStep s = .next t) :
    s.mlen.toNat + padValue s.mlen.toNat ≤ 64 ∧
      t = complete .none { s with
        buf := padBuffer s.buf s.mlen.toNat
        plen := BitVec.ofNat 8 (s.mlen.toNat + padValue s.mlen.toNat) } := by
  simp only [padStep, withinBuffer, Config.bufCap, decide_eq_true_eq] at h
  split at h
  · exact ⟨‹_›, by injection h with h; exact h.symm⟩
  · cases h

/-- Everything a core step of `UNPAD` can do (40_padder.md R135). -/
theorem unpadStep_next {s t : State} (h : unpadStep s = .next t) :
    s.plen.toNat ≤ 64 ∧
      ((padOK s.plen.toNat s.buf s.strict = true ∧
          t = complete .none { s with
            mlen := BitVec.ofNat 8 (s.plen.toNat - (padByte s.plen.toNat s.buf).toNat) }) ∨
        (padOK s.plen.toNat s.buf s.strict = false ∧ t = complete .paddingError s)) := by
  simp only [unpadStep, withinBuffer, Config.bufCap, decide_eq_true_eq, Nat.zero_add] at h
  split at h
  · refine ⟨‹_›, ?_⟩
    split at h
    · exact .inl ⟨‹_›, by injection h with h; exact h.symm⟩
    · rename_i hp
      exact .inr ⟨by simpa using hp, by injection h with h; exact h.symm⟩
  · cases h

/-- Everything a core step of `ENC` can do (42_cbc_engine.md R203). -/
theorem encStep_next {s t : State} (h : encStep s = .next t) :
    (s.fsm.phase = .kexp ∧ t = keyExpandStep s) ∨
      (s.fsm.phase = .blk ∧ s.fsm.j < 4 ∧ t = finishBlock (encBlock s) (encBlock s) s) := by
  simp only [encStep, withinBuffer, Config.bufCap, Config.blockSize, decide_eq_true_eq] at h
  split at h
  · cases h
  · exact .inl ⟨‹_›, by injection h with h; exact h.symm⟩
  · split at h
    · exact .inr ⟨‹_›, by omega, by injection h with h; exact h.symm⟩
    · cases h

/-- Everything a core step of `DEC` can do (42_cbc_engine.md R205). -/
theorem decStep_next {s t : State} (h : decStep s = .next t) :
    (s.fsm.phase = .kexp ∧ t = keyExpandStep s) ∨
      (s.fsm.phase = .blk ∧ s.fsm.j < 4 ∧ t = finishBlock (decBlock s) (readBlock s.buf s.fsm.j) s) := by
  simp only [decStep, withinBuffer, Config.bufCap, Config.blockSize, decide_eq_true_eq] at h
  split at h
  · cases h
  · exact .inl ⟨‹_›, by injection h with h; exact h.symm⟩
  · split at h
    · exact .inr ⟨‹_›, by omega, by injection h with h; exact h.symm⟩
    · cases h

/-- A block step changes the buffer, `CV`, `FSM`, and at the last block also `DONE` and `ERRCODE` (42_cbc_engine.md R203, R205). -/
theorem finishBlock_cases (out chain : Block) (s : State) :
    (s.fsm.j + 1 = s.fsm.nblk ∧
        finishBlock out chain s = complete .none { s with
          buf := writeBlock s.buf s.fsm.j out
          cv := chain
          fsm := { s.fsm with j := s.fsm.j + 1 } }) ∨
      (s.fsm.j + 1 ≠ s.fsm.nblk ∧
        finishBlock out chain s = { s with
          buf := writeBlock s.buf s.fsm.j out
          cv := chain
          fsm := { s.fsm with j := s.fsm.j + 1 } }) := by
  by_cases h : s.fsm.j + 1 = s.fsm.nblk
  · exact .inl ⟨h, if_pos h⟩
  · exact .inr ⟨h, if_neg h⟩

/-- Everything a core step of a busy block can do, by the command in progress. -/
theorem busyStep_next {s t : State} (h : busyStep s = .next t) :
    (s.fsm.op = .pad ∧ s.fsm.phase = .run ∧ padStep s = .next t) ∨
      (s.fsm.op = .unpad ∧ s.fsm.phase = .run ∧ unpadStep s = .next t) ∨
      (s.fsm.op = .enc ∧ encStep s = .next t) ∨ (s.fsm.op = .dec ∧ decStep s = .next t) ∨
      (s.fsm.op = .zeroize ∧ s.fsm.phase = .run ∧ t = complete .none (zeroized s)) := by
  unfold busyStep inRun zeroizeStep at h
  split at h
  · split at h
    · exact .inl ⟨‹_›, ‹_›, h⟩
    · cases h
  · split at h
    · exact .inr (.inl ⟨‹_›, ‹_›, h⟩)
    · cases h
  · exact .inr (.inr (.inl ⟨‹_›, h⟩))
  · exact .inr (.inr (.inr (.inl ⟨‹_›, h⟩)))
  · split at h
    · exact .inr (.inr (.inr (.inr ⟨‹_›, ‹_›, by injection h with h; exact h.symm⟩)))
    · cases h

/-- Everything clearing the buffer does to its bytes (43_control_cmds.md R231). -/
theorem readByte_clearBuffer (m : Memory) (x : Nat) :
    readByte (clearBuffer m) x = if x < 64 then 0x00 else readByte m x := by
  unfold clearBuffer
  rw [readByte_memWrite]
  simp only [length_rep, Config.bufCap, Nat.zero_le, true_and, Nat.zero_add]
  split
  · rename_i hx
    exact getD_rep _ _ hx
  · rfl

/-- A canonical buffer is cleared to the buffer that lists nothing. -/
theorem clearBuffer_eq_nil {m : Memory} (h : m.wf = true) : clearBuffer m = [] := by
  have hwf : (clearBuffer m).wf = true := by
    unfold clearBuffer
    exact wf_memWrite h (by simp)
  refine memory_ext hwf rfl fun x => ?_
  rw [readByte_clearBuffer]
  split
  · rfl
  · rename_i hx
    exact readByte_outside h (by simpa [Config.bufCap] using hx)

/-! ### The bus and one step -/

/-- A host read always answers a next state that differs only in `rdata` and `draws` (20_memory.md R73). -/
theorem runEvent_read (a : Byte) (s : State) : runEvent (.read a) s = .next (hostRead a s) := rfl

/-- A host write always answers a next state (20_memory.md R74). -/
theorem busWrite_next (a v : Byte) (s : State) : ∃ t, busWrite a v s = .next t := by
  unfold busWrite
  split <;> try exact ⟨_, rfl⟩
  unfold issue
  split
  · rw [exec_eq]; exact ⟨_, rfl⟩
  · exact ⟨_, rfl⟩

/-- Everything a host write can do (20_memory.md R74). -/
theorem busWrite_cases {a v : Byte} {s t : State} (h : busWrite a v s = .next t) :
    t = clearStatus v s ∨ t = s ∨ (s.busy = true ∧ t = dropWrite s) ∨
      (s.busy = false ∧
        ((∃ i : Fin 64, t = { s with buf := writeByte s.buf i.val v }) ∨ (∃ i : Fin 16, t = writeKey i v s) ∨
          t = { s with ctrl := v &&& ctrlMask } ∨ t = { s with mlen := v } ∨ t = { s with plen := v } ∨
          (∃ i, decode v = .ok i ∧ t = acceptOf i (beginIssue s)) ∨
          t = complete .illegalCmd (beginIssue s))) := by
  unfold busWrite at h
  cases hb : s.busy with
  | true =>
    split at h
    · injection h with h; exact .inl h.symm
    · injection h with h; exact .inr (.inl h.symm)
    · injection h with h; exact .inr (.inl h.symm)
    · rw [whenIdle_busy _ hb] at h; injection h with h; exact .inr (.inr (.inl ⟨rfl, h.symm⟩))
    · rw [whenIdle_busy _ hb] at h; injection h with h; exact .inr (.inr (.inl ⟨rfl, h.symm⟩))
    · unfold issue at h
      split at h
      · rw [exec_busy _ hb] at h; injection h with h; exact .inr (.inr (.inl ⟨rfl, h.symm⟩))
      · unfold issueIllegal at h
        rw [issueWith_busy _ hb] at h; injection h with h; exact .inr (.inr (.inl ⟨rfl, h.symm⟩))
    all_goals rw [whenIdle_busy _ hb] at h; injection h with h; exact .inr (.inr (.inl ⟨rfl, h.symm⟩))
  | false =>
    split at h
    · injection h with h; exact .inl h.symm
    · injection h with h; exact .inr (.inl h.symm)
    · injection h with h; exact .inr (.inl h.symm)
    · rw [whenIdle_idle _ hb] at h; injection h with h
      exact .inr (.inr (.inr ⟨rfl, .inl ⟨_, h.symm⟩⟩))
    · rw [whenIdle_idle _ hb] at h; injection h with h
      exact .inr (.inr (.inr ⟨rfl, .inr (.inl ⟨_, h.symm⟩)⟩))
    · unfold issue at h
      split at h
      · rename_i i hi
        rw [exec_idle _ hb] at h; injection h with h
        exact .inr (.inr (.inr ⟨rfl, .inr (.inr (.inr (.inr (.inr (.inl ⟨i, hi, h.symm⟩)))))⟩))
      · unfold issueIllegal at h
        rw [issueWith_idle _ hb] at h; injection h with h
        exact .inr (.inr (.inr ⟨rfl, .inr (.inr (.inr (.inr (.inr (.inr h.symm)))))⟩))
    · rw [whenIdle_idle _ hb] at h; injection h with h
      exact .inr (.inr (.inr ⟨rfl, .inr (.inr (.inl h.symm))⟩))
    · rw [whenIdle_idle _ hb] at h; injection h with h
      exact .inr (.inr (.inr ⟨rfl, .inr (.inr (.inr (.inl h.symm)))⟩))
    · rw [whenIdle_idle _ hb] at h; injection h with h
      exact .inr (.inr (.inr ⟨rfl, .inr (.inr (.inr (.inr (.inl h.symm))))⟩))

/-- What one step is, by the events still to come. -/
theorem step_nil {s : State} (h : s.inputs = []) : step s = coreStep (clearRdata s) := by simp [step, h]

theorem step_cons {s : State} {e : Event} {rest : List Event} (h : s.inputs = e :: rest) :
    step s = runEvent e (takeEvent rest s) := by simp [step, h]

/-! ### Running -/

@[simp] theorem coreSteps_zero (s : State) : coreSteps 0 s = .next s := rfl

theorem coreSteps_succ (n : Nat) (s : State) : coreSteps (n + 1) s = andThen (coreStep s) (coreSteps n) := rfl

theorem coreSteps_succ_of_next {n : Nat} {s t : State} (h : coreStep s = .next t) : coreSteps (n + 1) s = coreSteps n t := by
  rw [coreSteps_succ, h]; rfl

theorem coreSteps_idle {s : State} (h : s.busy = false) (n : Nat) : coreSteps n s = .next s := by
  induction n with
  | zero => rfl
  | succ n ih => rw [coreSteps_succ_of_next (coreStep_idle h), ih]

end Sys2Proof.Machine
end

