-- ==== Sys2Proof/Laws/Bus.lean ====
section
/-! SUPPORT. The register map address by address, the bits of `STATUS` and `CTRL`, and the state of an idle block. -/

namespace Sys2Proof.Machine

/-! ### The register map (20_memory.md R71, R72) -/

theorem addrTarget_buf {a : Byte} (h : a.toNat ≤ 0x3F) : addrTarget a = .buf ⟨a.toNat, by omega⟩ := by
  unfold addrTarget
  rw [dif_pos (by omega)]

theorem addrTarget_key {a : Byte} (h₁ : 0x40 ≤ a.toNat) (h₂ : a.toNat ≤ 0x4F) :
    addrTarget a = .key ⟨a.toNat - 0x40, by omega⟩ := by
  unfold addrTarget
  rw [dif_neg (by omega), dif_pos (by omega)]

theorem addrTarget_unmapped {a : Byte} (h : 0x56 ≤ a.toNat) : addrTarget a = .unmapped := by
  unfold addrTarget
  rw [dif_neg (by omega), dif_neg (by omega)]
  repeat rw [if_neg (by rintro rfl; revert h; decide)]

@[simp] theorem addrTarget_cmd : addrTarget 0x50#8 = .cmd := by decide
@[simp] theorem addrTarget_status : addrTarget 0x51#8 = .status := by decide
@[simp] theorem addrTarget_errcode : addrTarget 0x52#8 = .errcode := by decide
@[simp] theorem addrTarget_ctrl : addrTarget 0x53#8 = .ctrl := by decide
@[simp] theorem addrTarget_mlen : addrTarget 0x54#8 = .mlen := by decide
@[simp] theorem addrTarget_plen : addrTarget 0x55#8 = .plen := by decide

/-- Which addresses name each of the registers beyond the byte arrays. -/
theorem addrTarget_cases (a : Byte) :
    (a.toNat ≤ 0x3F ∧ ∃ h : a.toNat < 64, addrTarget a = .buf ⟨a.toNat, h⟩) ∨
      (0x40 ≤ a.toNat ∧ a.toNat ≤ 0x4F ∧ ∃ h : a.toNat - 0x40 < 16, addrTarget a = .key ⟨a.toNat - 0x40, h⟩) ∨
      a = 0x50#8 ∨ a = 0x51#8 ∨ a = 0x52#8 ∨ a = 0x53#8 ∨ a = 0x54#8 ∨ a = 0x55#8 ∨
      (0x56 ≤ a.toNat ∧ addrTarget a = .unmapped) := by
  by_cases h1 : a.toNat ≤ 0x3F
  · exact .inl ⟨h1, by omega, addrTarget_buf h1⟩
  by_cases h2 : a.toNat ≤ 0x4F
  · exact .inr (.inl ⟨by omega, h2, by omega, addrTarget_key (by omega) h2⟩)
  by_cases h3 : 0x56 ≤ a.toNat
  · exact .inr (.inr (.inr (.inr (.inr (.inr (.inr (.inr ⟨h3, addrTarget_unmapped h3⟩)))))))
  · have h4 : a.toNat = 0x50 ∨ a.toNat = 0x51 ∨ a.toNat = 0x52 ∨ a.toNat = 0x53 ∨ a.toNat = 0x54 ∨ a.toNat = 0x55 := by
      omega
    have h5 : ∀ n : Nat, a.toNat = n → a = BitVec.ofNat 8 n := fun n hn => by rw [← hn, BitVec.ofNat_toNat]; simp
    refine .inr (.inr ?_)
    rcases h4 with h | h | h | h | h | h
    · exact .inl (h5 _ h)
    · exact .inr (.inl (h5 _ h))
    · exact .inr (.inr (.inl (h5 _ h)))
    · exact .inr (.inr (.inr (.inl (h5 _ h))))
    · exact .inr (.inr (.inr (.inr (.inl (h5 _ h)))))
    · exact .inr (.inr (.inr (.inr (.inr (.inl (h5 _ h))))))

/-! ### Status and control bits -/

/-- `STATUS` bit by bit (10_state.md R36). -/
theorem status_bits (s : State) :
    s.status.getLsbD 0 = s.busy ∧ s.status.getLsbD 1 = s.done ∧ s.status.getLsbD 2 = s.err ∧
      s.status.getLsbD 3 = s.wbusy ∧ s.status.toNat < 16 := by
  unfold State.status
  generalize s.busy = b
  generalize s.done = d
  generalize s.err = e
  generalize s.wbusy = w
  revert b d e w
  decide

/-- What `CTRL` keeps of a written byte, and how it reads (10_state.md R35). -/
theorem ctrlMask_bits (v : Byte) :
    (v &&& ctrlMask).getLsbD 0 = v.getLsbD 0 ∧ (v &&& ctrlMask).getLsbD 1 = v.getLsbD 1 ∧ (v &&& ctrlMask).toNat < 4 := by
  revert v
  decide +kernel

/-! ### An idle block -/

theorem mode_of_idle {s : State} (h : s.busy = false) : s.fsm.mode = .idle := by
  unfold State.busy at h
  cases hm : s.fsm.mode with
  | idle => rfl
  | busy => rw [hm] at h; cases h

theorem mode_of_busy {s : State} (h : s.busy = true) : s.fsm.mode = .busy := by
  unfold State.busy at h
  cases hm : s.fsm.mode with
  | idle => rw [hm] at h; cases h
  | busy => rfl

/-- A completion inside the issuing step leaves the state machine as it was (60_exceptions.md R252). -/
theorem complete_beginIssue {s : State} (c : ErrCode) (h : s.busy = false) :
    complete c (beginIssue s) = { s with done := true, errcode := c.code } := by
  have hm := mode_of_idle h
  obtain ⟨buf, key, mlen, plen, ctrl, done, wbusy, errcode, ⟨mode, op, phase, j, nblk⟩, cv, rk, iv, inputs, rdata, draws⟩ := s
  simp only at hm
  subst hm
  rfl

end Sys2Proof.Machine
end

