-- ==== Sys2Proof/Laws/PerInstr.lean ====
section
/-! SUPPORT. The families of statements proved per command: `EncodingLegal`, the byte of every command has legal fields. -/

namespace Sys2Proof.Laws.EncodingLegal

/-- The fields of the byte of a command are the command's own, and they are legal (30_encoding.md R100, R102, R103). -/
def Statement (i : Instr) : Prop := cmdFields (encode i) = i.fields ∧ (cmdFields (encode i)).wellFormed = true

theorem nop : Statement .nop := by unfold Statement; decide
theorem pad : Statement .pad := by unfold Statement; decide
theorem unpad : Statement .unpad := by unfold Statement; decide
theorem enc : Statement .enc := by unfold Statement; decide
theorem dec : Statement .dec := by unfold Statement; decide
theorem zeroize : Statement .zeroize := by unfold Statement; decide

end Sys2Proof.Laws.EncodingLegal
end

