-- ==== Sys2Proof/Laws/Run.lean ====
section
/-! SUPPORT. Sequences of steps, and what one host event can do to a busy or an idle block. -/

namespace Sys2Proof.Machine

@[simp] theorem andThen_next (s : State) (k : State → Host.Outcome State Fault Refusal) : andThen (.next s) k = k s := rfl

@[simp] theorem runSteps_zero (s : State) : runSteps 0 s = .next s := rfl

theorem runSteps_succ (n : Nat) (s : State) : runSteps (n + 1) s = andThen (step s) (runSteps n) := rfl

theorem runSteps_succ_of_next {n : Nat} {s t : State} (h : step s = .next t) : runSteps (n + 1) s = runSteps n t := by
  rw [runSteps_succ, h, andThen_next]

/-- `runSteps` is the host's own run of the machine. -/
theorem runSteps_eq_run (n : Nat) (s : State) : runSteps n s = Host.Core.run Sys2Proof.core n s := by
  induction n generalizing s with
  | zero => rfl
  | succ n ih =>
    have hc : Sys2Proof.core.step s = step s := rfl
    simp only [Host.Core.run, runSteps_succ]
    rw [hc]
    cases step s with
    | next t => exact ih t
    | fault r => rfl
    | refused r => rfl

theorem runSteps_add {m : Nat} (n : Nat) {s t : State} (h : runSteps m s = .next t) : runSteps (m + n) s = runSteps n t := by
  induction m generalizing s with
  | zero =>
    injection h with h
    rw [Nat.zero_add, h]
  | succ m ih =>
    rw [runSteps_succ] at h
    rw [show m + 1 + n = (m + n) + 1 by omega, runSteps_succ]
    cases hs : step s with
    | next s' => rw [hs, andThen_next] at h; exact ih h
    | fault r => rw [hs] at h; cases h
    | refused r => rw [hs] at h; cases h

/-- A host access to a busy block changes only `DONE`, `WBUSY` and the model's own fields (20_memory.md R82). -/
theorem step_host_busy {s : State} {e : Event} {rest : List Event} (hb : s.busy = true) (he : isHostEvent e = true)
    (hi : s.inputs = e :: rest) :
    ∃ t, step s = .next t ∧
      t = { s with inputs := rest, rdata := t.rdata, done := t.done, wbusy := t.wbusy, draws := t.draws } := by
  rw [step_cons hi]
  cases e with
  | read a => exact ⟨_, rfl, rfl⟩
  | write a v =>
    obtain ⟨t, ht⟩ := busWrite_next a v (takeEvent rest s)
    refine ⟨t, ht, ?_⟩
    rcases busWrite_cases ht with rfl | rfl | ⟨_, rfl⟩ | ⟨h, _⟩
    · rfl
    · rfl
    · rfl
    · rw [takeEvent_busy, hb] at h
      cases h
  | core => cases he
  | reset => cases he

/-- An event that keeps the buffer leaves an idle block idle, with `BUF`, `PLEN`, `ERRCODE`, `CV`, `RK` and `FSM` unchanged. -/
theorem step_keepsBuffer_idle {s : State} {e : Event} {rest : List Event} (hb : s.busy = false)
    (he : keepsBuffer e = true) (hi : s.inputs = e :: rest) :
    ∃ t, step s = .next t ∧
      t = { s with
        inputs := rest, rdata := t.rdata, done := t.done, wbusy := t.wbusy, draws := t.draws, key := t.key,
        ctrl := t.ctrl, mlen := t.mlen } := by
  rw [step_cons hi]
  have hb' : (takeEvent rest s).busy = false := hb
  cases e with
  | read a => exact ⟨_, rfl, rfl⟩
  | core => exact ⟨_, coreStep_idle hb', rfl⟩
  | reset => cases he
  | write a v =>
    simp only [keepsBuffer, Bool.and_eq_true, decide_eq_true_eq, bne_iff_ne, ne_eq] at he
    simp only [runEvent]
    rcases addrTarget_cases a with ⟨h, _⟩ | ⟨_, _, _, h⟩ | rfl | rfl | rfl | rfl | rfl | rfl | ⟨_, h⟩
    · omega
    · simp only [busWrite, h, whenIdle_idle _ hb']
      exact ⟨_, rfl, rfl⟩
    · exact absurd rfl he.1.2
    · exact ⟨_, rfl, rfl⟩
    · exact ⟨_, rfl, rfl⟩
    · simp only [busWrite, addrTarget_ctrl, whenIdle_idle _ hb']
      exact ⟨_, rfl, rfl⟩
    · simp only [busWrite, addrTarget_mlen, whenIdle_idle _ hb']
      exact ⟨_, rfl, rfl⟩
    · exact absurd rfl he.2
    · simp only [busWrite, h]
      exact ⟨_, rfl, rfl⟩

/-- A host write of a command's byte to `CMD` runs that command. -/
theorem step_command {s : State} {v : Byte} {i : Instr} {rest : List Event} (hi : s.inputs = .write 0x50 v :: rest)
    (hd : decode v = .ok i) : step s = exec i (takeEvent rest s) := by
  rw [step_cons hi]
  change issue v _ = _
  simp only [issue, hd]

end Sys2Proof.Machine
end

