-- ==== Sys2Proof/Tests/Slice0.lean ====
section
/-! SUPPORT. The model's own tests: bytes written out from the encoding tables, ill-formed fields, one step per test
with results taken from 95_test_vectors.md, and for every statement with hypotheses a witness that meets them. -/

namespace Sys2Proof.Machine

/-! ### Helpers -/

/-- `IV_T` of 95_test_vectors.md. -/
def ivT : Block := #v[0x00, 0x01, 0x02, 0x03, 0x04, 0x05, 0x06, 0x07, 0x08, 0x09, 0x0A, 0x0B, 0x0C, 0x0D, 0x0E, 0x0F]

/-- The key of V-AES-2. -/
def keyB : Block := #v[0x2B, 0x7E, 0x15, 0x16, 0x28, 0xAE, 0xD2, 0xA6, 0xAB, 0xF7, 0x15, 0x88, 0x09, 0xCF, 0x4F, 0x3C]

/-- The ciphertext of V-AES-2. -/
def cipherB : Block := #v[0x39, 0x25, 0x84, 0x1D, 0x02, 0xDC, 0x09, 0xFB, 0xDC, 0x11, 0x85, 0x97, 0x19, 0x6A, 0x0B, 0x32]

/-- `BUF[0..16)` of V-CBC-2. -/
def plainB : Block := #v[0x32, 0x42, 0xF4, 0xAB, 0x8C, 0x5F, 0x36, 0x8A, 0x39, 0x38, 0x92, 0xA9, 0xEC, 0x3A, 0x09, 0x3B]

/-- A buffer that holds `bytes` from address 0 on. -/
def bufOf (bytes : List Byte) : Memory := memWrite [] 0 bytes

/-- The reset state under `IV_T`, with events to come. -/
def idleWith (es : List Event) : State := { State.reset with ivConst := ivT, inputs := es }

/-- The same, with `PLEN` = `16 * n`. -/
def idlePlen (n : Nat) (es : List Event) : State := { idleWith es with plen := BitVec.ofNat 8 (16 * n) }

/-- The same, with a command busy. -/
def busyWith (op : Op) (ph : Phase) (es : List Event) : State :=
  { idlePlen 1 es with fsm := { mode := .busy, op := op, phase := ph, j := 0, nblk := 1 } }

/-- What `f` sees in the next state, if there is one. -/
def seen {α : Type} (r : Host.Outcome State Fault Refusal) (f : State → α) : Option α :=
  match r with
  | .next t => some (f t)
  | .fault _ => none
  | .refused _ => none

/-- Why the step faults, if it does. -/
def faultOf (r : Host.Outcome State Fault Refusal) : Option Fault :=
  match r with
  | .next _ => none
  | .fault f => some f
  | .refused _ => none

/-- `STATUS` and `ERRCODE`. -/
def statusAndCode (s : State) : Byte × Byte := (s.status, s.errcode)

/-! ### Encoding: bytes written bit by bit from 30_encoding.md R100 (RSV 7:4, OP 3:0) and R102 -/

theorem test_decode_nop : decode 0b00000000#8 = .ok .nop := by decide
theorem test_decode_pad : decode 0b00000001#8 = .ok .pad := by decide
theorem test_decode_unpad : decode 0b00000010#8 = .ok .unpad := by decide
theorem test_decode_enc : decode 0b00000011#8 = .ok .enc := by decide
theorem test_decode_dec : decode 0b00000100#8 = .ok .dec := by decide
theorem test_decode_zeroize : decode 0b00000101#8 = .ok .zeroize := by decide

/-- V-BUS-6: the illegal bytes of the vector, by the reason. -/
theorem test_decode_illegal :
    decode 0x06 = .error .reservedOpcode ∧ decode 0x0F = .error .reservedOpcode ∧
      decode 0x10 = .error .reservedBits ∧ decode 0x11 = .error .reservedBits ∧
      decode 0x83 = .error .reservedBits ∧ decode 0xFF = .error .reservedBits := by decide

/-- 30_encoding.md R102: the bytes of the opcode map. -/
theorem test_encode :
    encode .nop = 0x00 ∧ encode .pad = 0x01 ∧ encode .unpad = 0x02 ∧ encode .enc = 0x03 ∧ encode .dec = 0x04 ∧
      encode .zeroize = 0x05 := by decide

/-- 30_encoding.md R100: ill-formed fields, one for each check, and the highest legal pair. -/
theorem test_wellFormed_refuses :
    (CmdFields.mk 0x1 0x0).rsvZero = false ∧ (CmdFields.mk 0x1 0x0).wellFormed = false ∧
      (CmdFields.mk 0x0 0x6).opAssigned = false ∧ (CmdFields.mk 0x0 0x6).wellFormed = false ∧
      (CmdFields.mk 0x0 0x5).wellFormed = true := by decide

/-- A table word wider than a command is no command. -/
theorem test_decodeTableWord_width : decodeTableWord 16 0x0101 = none ∧ decodeTableWord 8 0x05 = some .zeroize := by decide

/-! ### The commands -/

/-- V-CTL-1. -/
theorem test_nop_status : seen (exec .nop (idleWith [])) statusAndCode = some (0x02, 0x00) := by decide

/-- V-CTL-3. -/
theorem test_nop_irq : seen (exec .nop { idleWith [] with ctrl := 0x02 }) State.irq = some true := by decide

/-- V-PAD, rows 63, 64 and 255: `STATUS` and `ERRCODE` after the issue. -/
theorem test_pad_issue :
    seen (exec .pad { idleWith [] with mlen := 63 }) statusAndCode = some (0x01, 0x00) ∧
      seen (exec .pad { idleWith [] with mlen := 64 }) statusAndCode = some (0x06, 0x02) ∧
      seen (exec .pad { idleWith [] with mlen := 255 }) statusAndCode = some (0x06, 0x02) := by decide +kernel

/-- S-2: "HELLO". -/
theorem test_pad_core_hello :
    seen (busyStep { busyWith .pad .run [] with buf := bufOf [0x48, 0x45, 0x4C, 0x4C, 0x4F], mlen := 5 })
        (fun t => (readBlock t.buf 0, readByte t.buf 16, t.plen, t.status)) =
      some (#v[0x48, 0x45, 0x4C, 0x4C, 0x4F, 0x0B, 0x0B, 0x0B, 0x0B, 0x0B, 0x0B, 0x0B, 0x0B, 0x0B, 0x0B, 0x0B],
        0x00, 0x10, 0x02) := by decide +kernel

/-- V-UNPAD, row U9: accepted loose with `MLEN = 0x0D`, refused strict with `MLEN` unchanged. -/
theorem test_unpad_loose_and_strict :
    let s := { busyWith .unpad .run [] with mlen := 0x77, buf := bufOf (List.replicate 12 0x41 ++ [7, 7, 7, 3]) }
    seen (busyStep s) (fun t => (t.errcode, t.mlen)) = some (0x00, 0x0D) ∧
      seen (busyStep { s with ctrl := 0x01 }) (fun t => (t.errcode, t.mlen)) = some (0x01, 0x77) := by decide +kernel

/-- V-UNPAD, rows U1, U11 and U18. -/
theorem test_unpad_errors :
    seen (busyStep { busyWith .unpad .run [] with plen := 0, mlen := 0x77 }) (fun t => (t.errcode, t.mlen)) =
        some (0x01, 0x77) ∧
      seen (busyStep { busyWith .unpad .run [] with
        plen := 5, mlen := 0x77, buf := bufOf [0x41, 0x41, 0x41, 0x41, 6] }) (fun t => (t.errcode, t.mlen)) =
        some (0x01, 0x77) ∧
      seen (exec .unpad { idleWith [] with plen := 65 }) statusAndCode = some (0x06, 0x03) := by decide +kernel

/-- V-CBC-9. -/
theorem test_enc_issue :
    seen (exec .enc { idleWith [] with plen := 0x41 }) statusAndCode = some (0x06, 0x03) ∧
      seen (exec .enc { idleWith [] with plen := 0x40 }) (fun t => (t.status, t.fsm.nblk)) = some (0x01, 4) := by decide

/-- V-CBC-2: the block step. -/
theorem test_enc_core_block :
    seen (busyStep { busyWith .enc .blk [] with
      key := keyB, rk := keyExpansion keyB, cv := ivT, buf := bufOf plainB.toList })
        (fun t => (readBlock t.buf 0, t.cv, t.status)) = some (cipherB, cipherB, 0x02) := by decide +kernel

/-- V-CBC-9. -/
theorem test_dec_issue :
    seen (exec .dec { idleWith [] with plen := 0x00 }) statusAndCode = some (0x06, 0x03) ∧
      seen (exec .dec { idleWith [] with plen := 0x10 }) (fun t => (t.status, t.fsm.nblk)) = some (0x01, 1) := by decide

/-- V-CBC-2 backwards: the block step restores the plaintext, and `CV` is the input block. -/
theorem test_dec_core_block :
    seen (busyStep { busyWith .dec .blk [] with
      key := keyB, rk := keyExpansion keyB, cv := ivT, buf := bufOf cipherB.toList })
        (fun t => (readBlock t.buf 0, t.cv, t.status)) = some (plainB, cipherB, 0x02) := by decide +kernel

/-- V-CTL-4. -/
theorem test_zeroize_core :
    seen (busyStep { busyWith .zeroize .run [] with
      key := keyB, mlen := 9, ctrl := 0x03, wbusy := true, buf := bufOf (List.replicate 64 0xAA) })
        (fun t => (t.buf, t.key, t.mlen, t.plen, t.ctrl, t.status)) =
      some ([], zeroBlock, 0x00, 0x00, 0x03, 0x0A) := by decide +kernel

/-- 43_control_cmds.md R231: always accepted. -/
theorem test_zeroize_issue : seen (exec .zeroize (idlePlen 15 [])) statusAndCode = some (0x01, 0x00) := by decide

/-! ### The AES and CBC functions -/

/-- V-AES-4 and the inverse cipher on its output. -/
theorem test_aes_zero :
    let c : Block := #v[0x66, 0xE9, 0x4B, 0xD4, 0xEF, 0x8A, 0x2C, 0x3B, 0x88, 0x4C, 0xFA, 0x59, 0xCA, 0x34, 0x2B, 0x2E]
    aesEncrypt (keyExpansion zeroBlock) zeroBlock = c ∧ aesDecrypt (keyExpansion zeroBlock) c = zeroBlock := by
  decide +kernel

/-- V-AES-3: words 4, 23 and 43 of the key schedule. -/
theorem test_key_words :
    (keyWords keyB)[4]? = some #v[0xA0, 0xFA, 0xFE, 0x17] ∧ (keyWords keyB)[23]? = some #v[0x11, 0xF9, 0x15, 0xBC] ∧
      (keyWords keyB)[43]? = some #v[0xB6, 0x63, 0x0C, 0xA6] := by decide +kernel

/-- V-CBC-1, blocks 0 and 1. -/
theorem test_cbc_encrypt :
    cbcEncrypt keyB ivT
      [#v[0x6B, 0xC1, 0xBE, 0xE2, 0x2E, 0x40, 0x9F, 0x96, 0xE9, 0x3D, 0x7E, 0x11, 0x73, 0x93, 0x17, 0x2A],
        #v[0xAE, 0x2D, 0x8A, 0x57, 0x1E, 0x03, 0xAC, 0x9C, 0x9E, 0xB7, 0x6F, 0xAC, 0x45, 0xAF, 0x8E, 0x51]] =
      [#v[0x76, 0x49, 0xAB, 0xAC, 0x81, 0x19, 0xB2, 0x46, 0xCE, 0xE9, 0x8E, 0x9B, 0x12, 0xE9, 0x19, 0x7D],
        #v[0x50, 0x86, 0xCB, 0x9B, 0x50, 0x72, 0x19, 0xEE, 0x95, 0xDB, 0x11, 0x3A, 0x91, 0x76, 0x78, 0xB2]] := by
  decide +kernel

/-! ### The bus, and the two faults of states no run reaches -/

/-- V-BUS-1 at three addresses, and `KEY` never read (V-BUS-2). -/
theorem test_bus_read :
    busRead 0x3F (idleWith []) = 0x00 ∧ busRead 0x53 { idleWith [] with ctrl := 0x03 } = 0x03 ∧
      busRead 0x40 { idleWith [] with key := keyB } = 0x00 ∧ busRead 0xFF (idleWith []) = 0x00 := by decide

/-- V-BUS-3. -/
theorem test_bus_ctrl_mask : seen (busWrite 0x53 0xFF (idleWith [])) State.ctrlRead = some 0x03 := by decide

/-- V-BUS-6. -/
theorem test_bus_illegal_command : seen (busWrite 0x50 0x83 (idleWith [])) statusAndCode = some (0x06, 0x04) := by decide

/-- V-BUS-8. -/
theorem test_bus_status_clears_nothing :
    seen (busWrite 0x51 0xF5 { idleWith [] with done := true }) State.status = some 0x02 := by decide

/-- V-BUS-10 and V-BUS-11. -/
theorem test_bus_busy :
    seen (busWrite 0x00 0xAA (busyWith .enc .kexp [])) State.status = some 0x09 ∧
      seen (busWrite 0x50 0x04 (busyWith .enc .kexp [])) State.status = some 0x09 ∧
      seen (busWrite 0x51 0x08 { busyWith .enc .kexp [] with wbusy := true }) State.status = some 0x01 := by decide

theorem test_fault_noCoreStep :
    faultOf (busyStep (busyWith .pad .blk [])) = some .noCoreStep ∧
      faultOf (busyStep (busyWith .enc .run [])) = some .noCoreStep := by decide

theorem test_fault_outOfBuffer :
    faultOf (busyStep { busyWith .pad .run [] with mlen := 64 }) = some .outOfBuffer ∧
      faultOf (busyStep { busyWith .unpad .run [] with plen := 65 }) = some .outOfBuffer := by decide

/-! ### Witnesses: for every statement with hypotheses, a state and operands that meet them, clause by clause -/

theorem witness_OpcodeMap :
    decode 0x06 = .error .reservedOpcode ∧ decode 0x0F = .error .reservedOpcode ∧
      decode 0x10 = .error .reservedBits ∧ decode 0xFF = .error .reservedBits := by decide

theorem witness_PlacedTableWordIsRunNext : ∃ w i, w < 256 ∧ decodeTableWord 8 w = some i := ⟨3, .enc, by decide, by decide⟩

theorem witness_StepRunsDecodedCommand :
    ∃ (s : State) (v : Byte) (rest : List Event) (i : Instr), s.inputs = .write 0x50 v :: rest ∧ decode v = .ok i :=
  ⟨idleWith [.write 0x50 0x02], 0x02, [], .unpad, rfl, by decide⟩

theorem witness_StepPerformsNextEvent :
    (∃ (s : State) (a : Byte) (rest : List Event), s.inputs = .read a :: rest) ∧
      (∃ (s : State) (a v : Byte) (rest : List Event), s.inputs = .write a v :: rest) ∧
      (∃ (s : State) (rest : List Event), s.inputs = .core :: rest ∧ s.busy = true) ∧
      (∃ (s : State) (rest : List Event), s.inputs = .core :: rest ∧ s.busy = false) ∧
      (∃ (s : State) (rest : List Event), s.inputs = .reset :: rest) ∧
      (∃ s : State, s.inputs = [] ∧ s.busy = true) ∧ (∃ s : State, s.inputs = [] ∧ s.busy = false) :=
  ⟨⟨idleWith [.read 0x3F], 0x3F, [], rfl⟩, ⟨idleWith [.write 0x55 1], 0x55, 1, [], rfl⟩,
    ⟨busyWith .pad .run [.core], [], rfl, rfl⟩, ⟨idleWith [.core], [], rfl, rfl⟩,
    ⟨busyWith .pad .run [.reset], [], rfl⟩, ⟨busyWith .pad .run [], rfl, rfl⟩, ⟨idleWith [], rfl, rfl⟩⟩

/-- The addresses at the ends of each clause of the read map, with the byte the map gives. -/
theorem witness_BusReadFollowsTheMap :
    (∃ (s : State) (rest : List Event), s.inputs = .read 0x3F :: rest ∧ s.busy = true) ∧
      (∃ (s : State) (rest : List Event), s.inputs = .read 0x00 :: rest ∧ s.busy = false) ∧
      (let s := { idlePlen 1 [] with mlen := 5, errcode := 3, done := true, key := keyB, buf := bufOf cipherB.toList }
       busRead 0x00 s = 0x39 ∧ busRead 0x0F s = 0x32 ∧ busRead 0x3F s = 0x00 ∧ busRead 0x40 s = 0x00 ∧
         busRead 0x50 s = 0x00 ∧ busRead 0x51 s = 0x06 ∧ busRead 0x52 s = 0x03 ∧ busRead 0x53 s = 0x00 ∧
         busRead 0x54 s = 0x05 ∧ busRead 0x55 s = 0x10 ∧ busRead 0x56 s = 0x00 ∧ busRead 0xFF s = 0x00) :=
  ⟨⟨busyWith .pad .run [.read 0x3F], [], rfl, rfl⟩, ⟨idleWith [.read 0x00], [], rfl, rfl⟩, by decide +kernel⟩

theorem witness_BusyBufferReadsAreFreshDraws :
    ∃ (s : State) (a b : Byte) (rest : List Event), s.busy = true ∧ a.toNat ≤ 0x3F ∧ b.toNat ≤ 0x3F ∧
      s.inputs = .read a :: .read b :: rest :=
  ⟨busyWith .pad .run [.read 0x00, .read 0x3F], 0x00, 0x3F, [], rfl, by decide, by decide, rfl⟩

/-- Every clause of the write map at the ends of its range. -/
theorem witness_BusWriteFollowsTheMap :
    (let s := busyWith .pad .run []
     s.busy = true ∧ seen (busWrite 0x00 1 s) State.wbusy = some true ∧
       seen (busWrite 0x50 1 s) State.wbusy = some true ∧ seen (busWrite 0x53 1 s) State.wbusy = some true ∧
       seen (busWrite 0x55 1 s) State.wbusy = some true ∧ seen (busWrite 0x51 1 s) State.wbusy = some false ∧
       seen (busWrite 0x52 1 s) State.wbusy = some false ∧ seen (busWrite 0x56 1 s) State.wbusy = some false ∧
       seen (busWrite 0xFF 1 s) State.wbusy = some false) ∧
    (let s := idleWith []
     s.busy = false ∧ seen (busWrite 0x00 7 s) State.buf = some [(0, 7)] ∧
       seen (busWrite 0x3F 7 s) State.buf = some [(63, 7)] ∧ seen (busWrite 0x40 7 s) (·.key[0]) = some 7 ∧
       seen (busWrite 0x4F 7 s) (·.key[15]) = some 7 ∧ seen (busWrite 0x50 0 s) State.done = some true ∧
       seen (busWrite 0x50 7 s) State.errcode = some 4 ∧ seen (busWrite 0x53 7 s) State.ctrl = some 3 ∧
       seen (busWrite 0x54 7 s) State.mlen = some 7 ∧ seen (busWrite 0x55 7 s) State.plen = some 7 ∧
       seen (busWrite 0x52 7 s) State.errcode = some 0) := by decide +kernel

theorem witness_BusyWriteOnlySetsWbusy :
    (∃ (s : State) (a v : Byte) (rest : List Event), s.busy = true ∧ s.inputs = .write a v :: rest ∧ a.toNat ≤ 0x50) ∧
      (∃ (s : State) (v : Byte) (rest : List Event), s.busy = true ∧ s.inputs = .write 0x55 v :: rest) ∧
      (∃ (s : State) (v : Byte) (rest : List Event), s.busy = true ∧ s.inputs = .write 0x51 v :: rest) :=
  ⟨⟨busyWith .pad .run [.write 0x50 3], 0x50, 3, [], rfl, rfl, by decide⟩,
    ⟨busyWith .pad .run [.write 0x55 3], 3, [], rfl, rfl⟩, ⟨busyWith .pad .run [.write 0x51 8], 8, [], rfl, rfl⟩⟩

theorem witness_BufferReadsBackWhatWasWritten :
    ∃ (s : State) (a b v : Byte) (rest : List Event), s.busy = false ∧ a.toNat ≤ 0x3F ∧ b.toNat ≤ 0x3F ∧
      s.inputs = .write a v :: .read b :: rest :=
  ⟨idleWith [.write 0x3F 9, .read 0x3F], 0x3F, 0x3F, 9, [], rfl, by decide, by decide, rfl⟩

theorem witness_ResetAtAnyTimeClearsTheBlock :
    ∃ (s : State) (rest : List Event), s.busy = true ∧ s.inputs = .reset :: rest :=
  ⟨busyWith .enc .blk [.reset], [], rfl, rfl⟩

theorem witness_IrqFollowsEnableAndDone :
    (∃ (s t : State) (v : Byte), v.getLsbD 1 = true ∧ busWrite 0x51 v s = .next t) ∧
      (∃ (s t : State) (v : Byte), v.getLsbD 1 = false ∧ s.busy = false ∧ busWrite 0x53 v s = .next t) ∧
      (∃ (s t : State) (v : Byte), s.busy = false ∧ busWrite 0x50 v s = .next t ∧ t.busy = true) :=
  ⟨⟨{ idleWith [] with done := true, ctrl := 2 }, _, 0x02, by decide, rfl⟩,
    ⟨{ idleWith [] with done := true, ctrl := 2 }, _, 0x01, by decide, rfl, rfl⟩,
    ⟨{ idleWith [] with done := true, ctrl := 2 }, _, 0x05, rfl, rfl, rfl⟩⟩

theorem witness_BusyChangesOnlyByIssueCoreOrReset :
    (∃ s t : State, step s = .next t ∧ s.busy = false ∧ t.busy = true) ∧
      (∃ s t : State, step s = .next t ∧ s.busy = true ∧ t.busy = false) :=
  ⟨⟨idleWith [.write 0x50 0x05], _, rfl, rfl, rfl⟩, ⟨busyWith .zeroize .run [.core], _, rfl, rfl, rfl⟩⟩

theorem witness_WbusyIsSticky :
    (∃ s t : State, step s = .next t ∧ s.wbusy = true ∧ t.wbusy = false) ∧
      (∃ s t : State, step s = .next t ∧ s.wbusy = false ∧ t.wbusy = true) :=
  ⟨⟨{ idleWith [.write 0x51 0x08] with wbusy := true }, _, rfl, rfl, rfl⟩,
    ⟨busyWith .zeroize .run [.write 0x00 1], _, rfl, rfl, rfl⟩⟩

theorem witness_DoneRisesOnlyByCompletion :
    (∃ s t : State, step s = .next t ∧ s.done = false ∧ t.done = true) ∧
      (∃ s t : State, step s = .next t ∧ s.done = true ∧ t.done = false) :=
  ⟨⟨busyWith .zeroize .run [.core], _, rfl, rfl, rfl⟩,
    ⟨{ idleWith [.write 0x50 0x05] with done := true }, _, rfl, rfl, rfl⟩⟩

theorem witness_CommandWhileBusyIsDropped : ∃ s : State, s.busy = true := ⟨busyWith .enc .blk [], rfl⟩

theorem witness_IllegalByteCompletesAtOnce :
    ∃ s : State, s.busy = false ∧ (0x06 : Byte).extractLsb' 4 4 = 0#4 ∧ 0x6 ≤ ((0x06 : Byte).extractLsb' 0 4).toNat ∧
      (0x10 : Byte).extractLsb' 4 4 ≠ 0#4 := ⟨idleWith [], rfl, by decide, by decide, by decide⟩

theorem witness_FailedCommandsArePrecise :
    (∃ (i : Instr) (s t : State), s.busy = false ∧ exec i s = .next t ∧ t.errcode ≠ 0x00) ∧
      (∃ s u : State, s.busy = true ∧ coreStep s = .next u ∧ u.busy = false ∧ u.errcode ≠ 0x00) :=
  ⟨⟨.enc, idlePlen 0 [], _, rfl, rfl, by decide⟩,
    ⟨{ busyWith .unpad .run [] with plen := 0 }, _, rfl, rfl, rfl, by decide⟩⟩

theorem witness_IssueFrame : ∃ (i : Instr) (s t : State), exec i s = .next t := ⟨.enc, idlePlen 4 [], _, rfl⟩

theorem witness_CoreStepFrame :
    (∃ s t : State, s.busy = true ∧ coreStep s = .next t ∧ s.fsm.op = .pad) ∧
      (∃ s t : State, s.busy = true ∧ coreStep s = .next t ∧ s.fsm.op = .unpad) ∧
      (∃ s t : State, s.busy = true ∧ coreStep s = .next t ∧ s.fsm.op = .enc ∧ s.fsm.phase = .kexp) ∧
      (∃ s t : State, s.busy = true ∧ coreStep s = .next t ∧ s.fsm.op = .dec ∧ s.fsm.phase = .blk) ∧
      (∃ s t : State, s.busy = true ∧ coreStep s = .next t ∧ s.fsm.op = .zeroize) :=
  ⟨⟨{ busyWith .pad .run [] with mlen := 63 }, _, rfl, rfl, rfl⟩,
    ⟨{ busyWith .unpad .run [] with plen := 0 }, _, rfl, rfl, rfl⟩, ⟨busyWith .enc .kexp [], _, rfl, rfl, rfl, rfl⟩,
    ⟨busyWith .dec .blk [], _, rfl, rfl, rfl, rfl⟩, ⟨busyWith .zeroize .run [], _, rfl, rfl, rfl⟩⟩

/-- For `NopCompletesAtOnce`, `ZeroizeClearsKeyAndBuffer`, `PadAccept`, `PadAppendsPadding`, `UnpadAccept`,
`UnpadStripsOrReports` and `CipherAccept`: an idle block, at the ends of every clause's range of `MLEN` and `PLEN`. -/
theorem witness_idle_accept_ranges :
    (idleWith []).busy = false ∧
      (let s := { idleWith [] with mlen := 63, plen := 64 }
       s.busy = false ∧ s.mlen.toNat ≤ 63 ∧ s.mlen.toNat < 64 ∧ s.plen.toNat ≤ 64 ∧
         (s.plen = 16 ∨ s.plen = 32 ∨ s.plen = 48 ∨ s.plen = 64)) ∧
      (let s := { idleWith [] with mlen := 64, plen := 65 }
       s.busy = false ∧ 64 ≤ s.mlen.toNat ∧ 64 < s.plen.toNat ∧
         ¬(s.plen = 16 ∨ s.plen = 32 ∨ s.plen = 48 ∨ s.plen = 64)) := by decide

/-- Both cases of `UnpadStripsOrReports` occur. -/
theorem witness_UnpadStripsOrReports :
    let s := { idlePlen 4 [] with buf := [(63, 0x10)] }
    s.busy = false ∧ s.plen.toNat ≤ 64 ∧ padOK s.plen.toNat s.buf s.strict = true ∧
      padOK s.plen.toNat s.buf { s with ctrl := 1 }.strict = false := by decide +kernel

theorem witness_PaddedBufferEndsInItsCount :
    ∃ s t u : State, s.busy = false ∧ exec .pad s = .next t ∧ coreStep t = .next u ∧ u.errcode = 0x00 :=
  ⟨{ idleWith [] with mlen := 63 }, _, _, rfl, rfl, rfl, rfl⟩

theorem witness_PaddingCheck : ∃ (len : Nat) (b : Memory), len ≤ 64 ∧ padOK len b true = true ∧ padOK len b false = true :=
  ⟨64, [(63, 1)], by decide, by decide +kernel, by decide +kernel⟩

theorem witness_StrictAcceptsSubsetOfLoose :
    (∃ (len : Nat) (b : Memory), padOK len b true = true) ∧
      (∃ s t : State, unpadStep { s with ctrl := 0x01 } = .next t ∧ t.errcode = 0x00) :=
  ⟨⟨16, [(14, 2), (15, 2)], by decide +kernel⟩, ⟨{ busyWith .unpad .run [] with buf := [(15, 1)] }, _, rfl, rfl⟩⟩

theorem witness_PadThenUnpadRecoversLength :
    ∃ (s : State) (es₁ es₂ es₃ rest : List Event), s.busy = false ∧ s.mlen.toNat ≤ 63 ∧ es₁.all isHostEvent = true ∧
      es₂.all keepsBuffer = true ∧ es₃.all isHostEvent = true ∧
      s.inputs = .write 0x50 0x01 :: (es₁ ++ .core :: (es₂ ++ .write 0x50 0x02 :: (es₃ ++ .core :: rest))) :=
  ⟨{ idleWith [.write 0x50 1, .write 0x00 5, .read 0x51, .core, .write 0x53 1, .core, .write 0x50 2, .write 0x50 5, .core] with
      mlen := 63 },
    [.write 0x00 5, .read 0x51], [.write 0x53 1, .core], [.write 0x50 5], [], rfl, by decide, by decide, by decide,
    by decide, rfl⟩

/-- The least and the greatest number of blocks, for `EncRunsCbcEncrypt` and `DecRunsCbcDecrypt`. -/
theorem witness_EncRunsCbcEncrypt :
    ((idlePlen 1 []).busy = false ∧ 1 ≤ 1 ∧ 1 ≤ 4 ∧ (idlePlen 1 []).plen.toNat = 16 * 1) ∧
      ((idlePlen 4 []).busy = false ∧ 1 ≤ 4 ∧ 4 ≤ 4 ∧ (idlePlen 4 []).plen.toNat = 16 * 4) := by decide

theorem witness_CipherCoreSteps :
    (∃ s : State, s.busy = true ∧ s.fsm.op = .enc ∧ s.fsm.phase = .kexp) ∧
      (∃ s : State, s.busy = true ∧ s.fsm.phase = .blk ∧ s.fsm.j ≤ 3 ∧ s.fsm.op = .enc ∧ s.fsm.j + 1 = s.fsm.nblk) ∧
      (∃ s : State, s.busy = true ∧ s.fsm.phase = .blk ∧ s.fsm.j ≤ 3 ∧ s.fsm.op = .dec ∧ s.fsm.j + 1 ≠ s.fsm.nblk) ∧
      (∃ s : State, s.busy = true ∧ s.fsm.phase = .blk ∧ s.fsm.j = 3 ∧ s.fsm.op = .dec ∧ s.fsm.j + 1 = s.fsm.nblk) :=
  ⟨⟨busyWith .enc .kexp [], rfl, rfl, rfl⟩, ⟨busyWith .enc .blk [], rfl, rfl, by decide, rfl, rfl⟩,
    ⟨{ idlePlen 4 [] with fsm := { mode := .busy, op := .dec, phase := .blk, j := 2, nblk := 4 } }, rfl, rfl,
      by decide, rfl, by decide⟩, ⟨{ idlePlen 4 [] with fsm := { mode := .busy, op := .dec, phase := .blk, j := 3, nblk := 4 } },
      rfl, rfl, rfl, rfl, rfl⟩⟩

theorem witness_CbcDecryptInvertsEncrypt :
    ∃ (blocks : List Block) (j : Nat), j < blocks.length ∧ j + 1 = blocks.length := ⟨[zeroBlock, ivT], 1, by decide, by decide⟩

/-- The core's turns to the end of a command can be taken. -/
theorem witness_NoRetainedCipherContext :
    ∃ (s₁ s₂ t₁ t₂ u₁ u₂ : State), s₁.busy = false ∧ s₂.busy = false ∧ s₁ ≠ s₂ ∧ s₁.plen.toNat = 16 * 1 ∧
      s₂.plen = s₁.plen ∧ s₂.key = s₁.key ∧ s₂.ivConst = s₁.ivConst ∧
      (∀ x, x < 16 * 1 → readByte s₂.buf x = readByte s₁.buf x) ∧ exec .enc s₁ = .next t₁ ∧ exec .enc s₂ = .next t₂ ∧
      coreSteps (1 + 1) t₁ = .next u₁ ∧ coreSteps (1 + 1) t₂ = .next u₂ :=
  ⟨idlePlen 1 [], { idlePlen 1 [] with cv := ivT, wbusy := true }, _, _, _, _, rfl, rfl, by decide, rfl, rfl, rfl, rfl,
    fun _ _ => rfl, rfl, rfl, rfl, rfl⟩

/-- Buffers of one and of two blocks that agree on one block and differ after it. -/
theorem witness_EqualPrefixesEncryptEqually :
    ∃ (s₁ s₂ t₁ t₂ u₁ u₂ : State) (n₁ n₂ k : Nat), s₁.busy = false ∧ s₂.busy = false ∧ 1 ≤ n₁ ∧ n₁ ≤ 4 ∧ 1 ≤ n₂ ∧ n₂ ≤ 4 ∧
      s₁.plen.toNat = 16 * n₁ ∧ s₂.plen.toNat = 16 * n₂ ∧ s₂.key = s₁.key ∧ s₂.ivConst = s₁.ivConst ∧ 1 ≤ k ∧ k ≤ n₁ ∧
      k ≤ n₂ ∧ (∀ x, x < 16 * k → readByte s₂.buf x = readByte s₁.buf x) ∧ readByte s₂.buf 16 ≠ readByte s₁.buf 16 ∧
      exec .enc s₁ = .next t₁ ∧ exec .enc s₂ = .next t₂ ∧ coreSteps (1 + n₁) t₁ = .next u₁ ∧
      coreSteps (1 + n₂) t₂ = .next u₂ :=
  ⟨{ idlePlen 1 [] with buf := [(0, 7)] }, { idlePlen 2 [] with buf := [(0, 7), (16, 9)] }, _, _, _, _, 1, 2, 1, rfl, rfl,
    by decide, by decide, by decide, by decide, rfl, rfl, rfl, rfl, by decide, by decide, by decide, by decide, by decide,
    rfl, rfl, rfl, rfl⟩

theorem witness_DecryptionErrorsStayLocal :
    ∃ (key iv : Block) (blocks : List Block) (j : Nat) (p : Block), j < blocks.length ∧
      (cbcDecrypt key iv blocks)[j + 1]? = some p := ⟨keyB, ivT, [zeroBlock, ivT], 0, _, by decide, rfl⟩

theorem witness_EncThenDecRestoresBuffer :
    ∃ (s : State) (n : Nat) (es₁ es₂ es₃ rest : List Event), s.busy = false ∧ 1 ≤ n ∧ n ≤ 4 ∧ s.plen.toNat = 16 * n ∧
      es₁.all isBusyPeriodEvent = true ∧ es₁.count .core = n ∧ es₂.all keepsCipherInput = true ∧
      es₃.all isBusyPeriodEvent = true ∧ es₃.count .core = n ∧
      s.inputs = .write 0x50 0x03 :: (es₁ ++ .core :: (es₂ ++ .write 0x50 0x04 :: (es₃ ++ .core :: rest))) :=
  ⟨idlePlen 1 [.write 0x50 3, .core, .write 0x40 1, .core, .write 0x54 1, .core, .write 0x50 4, .read 0x00, .core, .core], 1,
    [.core, .write 0x40 1], [.write 0x54 1, .core], [.read 0x00, .core], [], rfl, by decide, by decide, rfl, by decide,
    by decide, by decide, by decide, by decide, rfl⟩

theorem witness_WorkflowRecoversMessage :
    ∃ (s : State) (n : Nat) (rest : List Event), s.busy = false ∧ s.mlen.toNat ≤ 63 ∧ n = padLen s.mlen.toNat / 16 ∧
      s.inputs = .write 0x50 0x01 :: .core :: .write 0x50 0x03 :: (List.replicate (1 + n) .core ++
        .write 0x50 0x04 :: (List.replicate (1 + n) .core ++ .write 0x50 0x02 :: .core :: rest)) :=
  ⟨{ idleWith ([.write 0x50 1, .core, .write 0x50 3] ++ List.replicate 5 .core ++ [.write 0x50 4] ++
      List.replicate 5 .core ++ [.write 0x50 2, .core]) with mlen := 63 }, 4, [], rfl, by decide, by decide, rfl⟩

theorem witness_BusyCommandsCompleteInTime :
    ∃ (i : Instr) (s t : State), s.busy = false ∧ exec i s = .next t ∧ t.busy = true :=
  ⟨.dec, idlePlen 4 [], _, rfl, rfl, rfl⟩

theorem witness_HostCannotDisturbBusyCommand :
    ∃ (s : State) (es rest : List Event), s.busy = true ∧ es.all isHostEvent = true ∧ s.inputs = es ++ rest :=
  ⟨busyWith .enc .blk [.write 0x40 1, .write 0x50 5, .read 0x10, .core], [.write 0x40 1, .write 0x50 5, .read 0x10], [.core],
    rfl, by decide, rfl⟩

theorem witness_IvConstNeverChanges : ∃ s t : State, step s = .next t := ⟨busyWith .zeroize .run [.reset], _, rfl⟩

/-- A busy state that meets the invariant: an `ENC` in its last block step, with the round keys of its key. -/
theorem witness_StepKeepsInvariant : ∃ s : State, BlockInv s ∧ s.busy = true :=
  ⟨{ busyWith .enc .blk [] with rk := keyExpansion zeroBlock },
    { buf_wf := by decide, ctrl_le := by decide, errcode_le := by decide, busy_done := fun _ => rfl,
      busy_errcode := fun _ => rfl,
      busy_command := fun _ =>
        { phase_ne_run := by decide, plen_eq := by decide, nblk_pos := by decide, nblk_le := by decide,
          j_lt := by decide, rk_eq := fun _ => rfl } }, rfl⟩

theorem witness_field_and_schedule_ranges :
    (0x01 : Byte) ≠ 0x00 ∧ (4 ≤ 4 ∧ 4 < 44) ∧ 4 ≤ 43 ∧ 43 < 44 := by decide

end Sys2Proof.Machine
end

section
/-! SUPPORT. The scope's statements: what one step is for each kind of next event, and that no step changes `IV_CONST`. -/

namespace Sys2Proof.Machine

/-! ### One step, by the next event (00_scope.md R9) -/

theorem step_read {s : State} {a : Byte} {rest : List Event} (h : s.inputs = .read a :: rest) :
    step s = .next (hostRead a (takeEvent rest s)) := step_cons h

theorem step_write {s : State} {a v : Byte} {rest : List Event} (h : s.inputs = .write a v :: rest) :
    step s = busWrite a v (takeEvent rest s) := step_cons h

theorem step_core {s : State} {rest : List Event} (h : s.inputs = .core :: rest) :
    step s = coreStep (takeEvent rest s) := step_cons h

theorem step_reset {s : State} {rest : List Event} (h : s.inputs = .reset :: rest) :
    step s = .next (applyReset (takeEvent rest s)) := step_cons h

/-- The byte a host read returns does not depend on the events to come or on the port (20_memory.md R73). -/
@[simp] theorem busRead_takeEvent (a : Byte) (rest : List Event) (s : State) :
    busRead a (takeEvent rest s) = busRead a s := rfl

/-- Settles O5: the equation of `step` for each next event, then the busy check of the core's turn. -/
theorem stepPerformsNextEvent : Obligations.StepPerformsNextEvent := by
  intro s rest
  refine ⟨fun a h => ?read, fun a v h => ?write, fun h hb => ?coreBusy, fun h hb => ?coreIdle, fun h => ?reset,
    fun h hb => ?noneBusy, fun h hb => ?noneIdle⟩
  case read => exact ⟨_, step_read h, congrArg some (busRead_takeEvent a rest s), rfl⟩
  case write => exact step_write h
  case coreBusy => exact (step_core h).trans (coreStep_busy hb)
  case coreIdle => exact (step_core h).trans (coreStep_idle hb)
  case reset => exact step_reset h
  case noneBusy => exact (step_nil h).trans (coreStep_busy hb)
  case noneIdle => exact (step_nil h).trans (coreStep_idle hb)

/-! ### `IV_CONST` is fixed (00_scope.md R7) -/

@[simp] theorem acceptOf_ivConst (i : Instr) (s : State) : (acceptOf i s).ivConst = s.ivConst := by
  obtain ⟨c, h⟩ | ⟨op, h⟩ | ⟨op, -, h⟩ := acceptOf_cases i s <;> simp [h]

@[simp] theorem finishBlock_ivConst (out chain : Block) (s : State) :
    (finishBlock out chain s).ivConst = s.ivConst := by
  obtain ⟨-, h⟩ | ⟨-, h⟩ := finishBlock_cases out chain s <;> simp [h]

theorem busWrite_ivConst {a v : Byte} {s t : State} (h : busWrite a v s = .next t) : t.ivConst = s.ivConst := by
  obtain rfl | rfl | ⟨-, rfl⟩ | ⟨-, ⟨i, rfl⟩ | ⟨i, rfl⟩ | rfl | rfl | rfl | ⟨i, -, rfl⟩ | rfl⟩ := busWrite_cases h <;>
    simp

theorem busyStep_ivConst {s t : State} (h : busyStep s = .next t) : t.ivConst = s.ivConst := by
  obtain ⟨-, -, hs⟩ | ⟨-, -, hs⟩ | ⟨-, hs⟩ | ⟨-, hs⟩ | ⟨-, -, rfl⟩ := busyStep_next h
  · obtain ⟨-, rfl⟩ := padStep_next hs
    simp
  · obtain ⟨-, ⟨-, rfl⟩ | ⟨-, rfl⟩⟩ := unpadStep_next hs <;> simp
  · obtain ⟨-, rfl⟩ | ⟨-, -, rfl⟩ := encStep_next hs <;> simp
  · obtain ⟨-, rfl⟩ | ⟨-, -, rfl⟩ := decStep_next hs <;> simp
  · simp

theorem coreStep_ivConst {s t : State} (h : coreStep s = .next t) : t.ivConst = s.ivConst := by
  cases hb : s.busy with
  | true => exact busyStep_ivConst ((coreStep_busy hb).symm.trans h)
  | false =>
    obtain rfl : s = t := Host.Outcome.next.inj ((coreStep_idle hb).symm.trans h)
    rfl

theorem runEvent_ivConst {e : Event} {s t : State} (h : runEvent e s = .next t) : t.ivConst = s.ivConst := by
  cases e with
  | read a =>
    obtain rfl : hostRead a s = t := Host.Outcome.next.inj h
    simp
  | write a v => exact busWrite_ivConst h
  | core => exact coreStep_ivConst h
  | reset =>
    obtain rfl : applyReset s = t := Host.Outcome.next.inj h
    simp

/-- Settles O56: a step is the core's turn or one event, on a state that differs only in `inputs` and `rdata`. -/
theorem ivConstNeverChanges : Obligations.IvConstNeverChanges := by
  intro s t h
  cases hi : s.inputs with
  | nil => exact (coreStep_ivConst ((step_nil hi).symm.trans h)).trans (clearRdata_ivConst s)
  | cons e rest => exact (runEvent_ivConst ((step_cons hi).symm.trans h)).trans (takeEvent_ivConst rest s)

end Sys2Proof.Machine
end

section
/-! SUPPORT. The state's statements: what each access can do to the bits `BUSY`, `DONE` and `WBUSY`, what a step can do to
them, and the reset values. -/

namespace Sys2Proof.Machine

/-! ### The status bits over one access (10_state.md R36 to R40) -/

/-- The status bits of `t` are those of `s`. -/
structure SameStatus (s t : State) : Prop where
  busy : t.busy = s.busy
  done : t.done = s.done
  wbusy : t.wbusy = s.wbusy

/-- `t` is what a completion leaves of the status bits of `s` (60_exceptions.md R252). -/
structure CompletedStatus (s t : State) : Prop where
  busy : t.busy = false
  done : t.done = true
  wbusy : t.wbusy = s.wbusy

/-- `t` is what the issue of a command that goes on leaves of the status bits of `s` (30_encoding.md R106). -/
structure StartedStatus (s t : State) : Prop where
  busy : t.busy = true
  done : t.done = false
  wbusy : t.wbusy = s.wbusy

theorem completedStatus_complete {s u : State} (c : ErrCode) (h : u.wbusy = s.wbusy) :
    CompletedStatus s (complete c u) := ⟨rfl, rfl, h⟩

theorem keyExpandStep_sameStatus (s : State) : SameStatus s (keyExpandStep s) := ⟨rfl, rfl, rfl⟩

theorem finishBlock_status (out chain : Block) (s : State) :
    SameStatus s (finishBlock out chain s) ∨ CompletedStatus s (finishBlock out chain s) := by
  obtain ⟨-, h⟩ | ⟨-, h⟩ := finishBlock_cases out chain s
  · exact .inr (h ▸ completedStatus_complete _ rfl)
  · exact .inl (h ▸ ⟨rfl, rfl, rfl⟩)

/-- A core step of a busy block keeps the status bits or completes the command. -/
theorem busyStep_status {s t : State} (h : busyStep s = .next t) : SameStatus s t ∨ CompletedStatus s t := by
  obtain ⟨-, -, hs⟩ | ⟨-, -, hs⟩ | ⟨-, hs⟩ | ⟨-, hs⟩ | ⟨-, -, rfl⟩ := busyStep_next h
  · obtain ⟨-, rfl⟩ := padStep_next hs
    exact .inr (completedStatus_complete _ rfl)
  · obtain ⟨-, ⟨-, rfl⟩ | ⟨-, rfl⟩⟩ := unpadStep_next hs <;> exact .inr (completedStatus_complete _ rfl)
  · obtain ⟨-, rfl⟩ | ⟨-, -, rfl⟩ := encStep_next hs
    · exact .inl (keyExpandStep_sameStatus s)
    · exact finishBlock_status _ _ s
  · obtain ⟨-, rfl⟩ | ⟨-, -, rfl⟩ := decStep_next hs
    · exact .inl (keyExpandStep_sameStatus s)
    · exact finishBlock_status _ _ s
  · exact .inr (completedStatus_complete _ rfl)

theorem coreStep_status {s t : State} (h : coreStep s = .next t) :
    SameStatus s t ∨ (s.busy = true ∧ CompletedStatus s t) := by
  cases hb : s.busy with
  | true => exact (busyStep_status ((coreStep_busy hb).symm.trans h)).imp_right fun hc => ⟨rfl, hc⟩
  | false =>
    obtain rfl : s = t := Host.Outcome.next.inj ((coreStep_idle hb).symm.trans h)
    exact .inl ⟨rfl, rfl, rfl⟩

/-- An accept routine that leaves the block busy is not the one of `NOP`. -/
theorem acceptOf_beginIssue_status (i : Instr) (s : State) :
    CompletedStatus s (acceptOf i (beginIssue s)) ∨ (i ≠ .nop ∧ StartedStatus s (acceptOf i (beginIssue s))) := by
  have hnop : (acceptOf i (beginIssue s)).busy = true → i ≠ .nop := by
    rintro hb rfl
    exact Bool.false_ne_true hb
  obtain ⟨c, h⟩ | ⟨op, h⟩ | ⟨op, -, h⟩ := acceptOf_cases i (beginIssue s) <;> rw [h] at hnop ⊢
  · exact .inl (completedStatus_complete c rfl)
  · exact .inr ⟨hnop rfl, rfl, rfl, rfl⟩
  · exact .inr ⟨hnop rfl, rfl, rfl, rfl⟩

/-- While idle, an issue completes at once, or it starts a command that is not `NOP` (30_encoding.md R103, R106). -/
theorem issue_idle_status {v : Byte} {s t : State} (hb : s.busy = false) (h : issue v s = .next t) :
    CompletedStatus s t ∨ ∃ i, decode v = .ok i ∧ i ≠ .nop ∧ StartedStatus s t := by
  unfold issue at h
  split at h
  next i hi =>
    obtain rfl : acceptOf i (beginIssue s) = t := Host.Outcome.next.inj ((exec_idle i hb).symm.trans h)
    exact (acceptOf_beginIssue_status i s).imp_right fun ⟨hn, hs⟩ => ⟨i, hi, hn, hs⟩
  next =>
    obtain rfl := Host.Outcome.next.inj h
    rw [issueWith_idle _ hb]
    exact .inl (completedStatus_complete _ rfl)

/-- While busy, every byte written to `CMD` is dropped (20_memory.md R82). -/
theorem issue_busy {v : Byte} {s : State} (hb : s.busy = true) : issue v s = .next (dropWrite s) := by
  unfold issue
  split
  · exact exec_busy _ hb
  · exact congrArg _ (issueWith_busy _ hb)

/-- The addresses whose writes a busy block drops: `BUF`, `KEY`, `CMD`, `CTRL`, `MLEN`, `PLEN` (20_memory.md R82). -/
def DroppedWhileBusy (a : Byte) : Prop := a.toNat ≤ 0x50 ∨ (0x53 ≤ a.toNat ∧ a.toNat ≤ 0x55)

/-! ### The status bits over one step -/

/-- The ways a step from `s` to `t` can treat the status bits, by the event it takes (`none`: no event is to come). -/
inductive StatusEffect (s t : State) : Option Event → Prop where
  | keep {e : Option Event} (same : SameStatus s t) : StatusEffect s t e
  | reset (busy : t.busy = false) (done : t.done = false) (wbusy : t.wbusy = false) : StatusEffect s t (some .reset)
  | clear (v : Byte) (busy : t.busy = s.busy) (done : t.done = (s.done && !v.getLsbD 1))
      (wbusy : t.wbusy = (s.wbusy && !v.getLsbD 3)) : StatusEffect s t (some (.write 0x51 v))
  | drop (a v : Byte) (dropped : DroppedWhileBusy a) (was_busy : s.busy = true) (busy : t.busy = true)
      (done : t.done = s.done) (wbusy : t.wbusy = true) : StatusEffect s t (some (.write a v))
  | completeAtOnce (v : Byte) (was_idle : s.busy = false) (completed : CompletedStatus s t) :
      StatusEffect s t (some (.write 0x50 v))
  | start (v : Byte) (i : Instr) (decodes : decode v = .ok i) (ne_nop : i ≠ .nop) (was_idle : s.busy = false)
      (started : StartedStatus s t) : StatusEffect s t (some (.write 0x50 v))
  | coreCompletes {e : Option Event} (turn : e = none ∨ e = some .core) (was_busy : s.busy = true)
      (completed : CompletedStatus s t) : StatusEffect s t e

/-- A write that takes effect only while idle, and then on other registers, keeps the status bits or is dropped. -/
theorem whenIdle_statusEffect {act : State → State} {a : Byte} (v : Byte) (s : State) (ha : DroppedWhileBusy a)
    (hact : SameStatus s (act s)) : StatusEffect s (whenIdle act s) (some (.write a v)) := by
  cases hb : s.busy with
  | true =>
    rw [whenIdle_busy act hb]
    exact .drop a v ha hb hb rfl rfl
  | false =>
    rw [whenIdle_idle act hb]
    exact .keep hact

theorem issue_statusEffect {v : Byte} {s t : State} (h : issue v s = .next t) :
    StatusEffect s t (some (.write 0x50 v)) := by
  cases hb : s.busy with
  | true =>
    obtain rfl : dropWrite s = t := Host.Outcome.next.inj ((issue_busy hb).symm.trans h)
    exact .drop _ v (.inl (by decide)) hb hb rfl rfl
  | false =>
    obtain hc | ⟨i, hd, hn, hs⟩ := issue_idle_status hb h
    · exact .completeAtOnce v hb hc
    · exact .start v i hd hn hb hs

/-- A host write, by the register map (20_memory.md R74). -/
theorem busWrite_statusEffect {a v : Byte} {s t : State} (h : busWrite a v s = .next t) :
    StatusEffect s t (some (.write a v)) := by
  suffices ∃ u, busWrite a v s = .next u ∧ StatusEffect s u (some (.write a v)) by
    obtain ⟨u, hu, he⟩ := this
    exact Host.Outcome.next.inj (hu.symm.trans h) ▸ he
  rcases addrTarget_cases a with ⟨ha, _, hm⟩ | ⟨_, ha, _, hm⟩ | rfl | rfl | rfl | rfl | rfl | rfl | ⟨_, hm⟩
  · exact ⟨_, by rw [busWrite, hm], whenIdle_statusEffect v s (.inl (by omega)) ⟨rfl, rfl, rfl⟩⟩
  · exact ⟨_, by rw [busWrite, hm], whenIdle_statusEffect v s (.inl (by omega)) ⟨rfl, rfl, rfl⟩⟩
  · exact ⟨t, h, issue_statusEffect h⟩
  · exact ⟨_, rfl, .clear v rfl rfl rfl⟩
  · exact ⟨_, rfl, .keep ⟨rfl, rfl, rfl⟩⟩
  · exact ⟨_, rfl, whenIdle_statusEffect v s (.inr (by decide)) ⟨rfl, rfl, rfl⟩⟩
  · exact ⟨_, rfl, whenIdle_statusEffect v s (.inr (by decide)) ⟨rfl, rfl, rfl⟩⟩
  · exact ⟨_, rfl, whenIdle_statusEffect v s (.inr (by decide)) ⟨rfl, rfl, rfl⟩⟩
  · exact ⟨_, by rw [busWrite, hm], .keep ⟨rfl, rfl, rfl⟩⟩

theorem coreStep_statusEffect {e : Option Event} {s t : State} (he : e = none ∨ e = some .core)
    (h : coreStep s = .next t) : StatusEffect s t e := by
  obtain hk | ⟨hb, hc⟩ := coreStep_status h
  · exact .keep hk
  · exact .coreCompletes he hb hc

theorem runEvent_statusEffect {e : Event} {s t : State} (h : runEvent e s = .next t) : StatusEffect s t (some e) := by
  cases e with
  | read a =>
    obtain rfl : hostRead a s = t := Host.Outcome.next.inj h
    exact .keep ⟨rfl, rfl, rfl⟩
  | write a v => exact busWrite_statusEffect h
  | core => exact coreStep_statusEffect (.inr rfl) h
  | reset =>
    obtain rfl : applyReset s = t := Host.Outcome.next.inj h
    exact .reset rfl rfl rfl

/-- The effect on the status bits speaks of nothing else of the state it starts from. -/
theorem StatusEffect.of_sameStatus {s u t : State} {e : Option Event} (hs : SameStatus s u) (h : StatusEffect u t e) :
    StatusEffect s t e := by
  obtain ⟨hb, hd, hw⟩ := hs
  cases h with
  | keep same => exact .keep ⟨same.busy.trans hb, same.done.trans hd, same.wbusy.trans hw⟩
  | reset busy done wbusy => exact .reset busy done wbusy
  | clear v busy done wbusy => exact .clear v (busy.trans hb) (hd ▸ done) (hw ▸ wbusy)
  | drop a v dropped was_busy busy done wbusy => exact .drop a v dropped (hb ▸ was_busy) busy (done.trans hd) wbusy
  | completeAtOnce v was_idle c => exact .completeAtOnce v (hb ▸ was_idle) ⟨c.busy, c.done, c.wbusy.trans hw⟩
  | start v i hv hn was_idle st => exact .start v i hv hn (hb ▸ was_idle) ⟨st.busy, st.done, st.wbusy.trans hw⟩
  | coreCompletes turn was_busy c => exact .coreCompletes turn (hb ▸ was_busy) ⟨c.busy, c.done, c.wbusy.trans hw⟩

/-- Everything a step can do to the status bits, by the next event. -/
theorem step_statusEffect {s t : State} (h : step s = .next t) : StatusEffect s t s.inputs.head? := by
  cases hi : s.inputs with
  | nil =>
    rw [List.head?_nil]
    exact .of_sameStatus (u := clearRdata s) ⟨rfl, rfl, rfl⟩
      (coreStep_statusEffect (.inl rfl) ((step_nil hi).symm.trans h))
  | cons e rest =>
    rw [List.head?_cons]
    exact .of_sameStatus (u := takeEvent rest s) ⟨rfl, rfl, rfl⟩
      (runEvent_statusEffect ((step_cons hi).symm.trans h))

/-! ### The statements on the status bits -/

/-- The next event is the core's turn, or no event is to come. -/
theorem core_or_nil_of_head? {es : List Event} (h : es.head? = none ∨ es.head? = some .core) :
    es = [] ∨ ∃ rest, es = .core :: rest :=
  h.imp List.head?_eq_none_iff.mp List.head?_eq_some_iff.mp

/-- Settles O16, by the ways a step can treat the status bits. -/
theorem busyChangesOnlyByIssueCoreOrReset : Obligations.BusyChangesOnlyByIssueCoreOrReset := by
  intro s t h
  have he := step_statusEffect h
  generalize hi : s.inputs.head? = e at he
  refine ⟨fun hs ht => ?rise, fun hs ht => ?fall⟩
  case rise =>
    cases he with
    | start v i hd hn =>
      obtain ⟨rest, hr⟩ := List.head?_eq_some_iff.mp hi
      exact ⟨v, i, rest, hr, hd, hn⟩
    | keep same => simp [same.busy, hs] at ht
    | reset busy => simp [busy] at ht
    | clear v busy => simp [busy, hs] at ht
    | drop a v _ was_busy => simp [was_busy] at hs
    | completeAtOnce v _ c => simp [c.busy] at ht
    | coreCompletes _ _ c => simp [c.busy] at ht
  case fall =>
    cases he with
    | reset => exact .inr (.inr (List.head?_eq_some_iff.mp hi))
    | coreCompletes turn =>
      subst hi
      exact (core_or_nil_of_head? turn).imp_right .inl
    | keep same => simp [same.busy, hs] at ht
    | clear v busy => simp [busy, hs] at ht
    | drop a v _ _ busy => simp [busy] at ht
    | completeAtOnce v was_idle => simp [was_idle] at hs
    | start v i _ _ was_idle => simp [was_idle] at hs

/-- Settles O17, by the ways a step can treat the status bits. -/
theorem wbusyIsSticky : Obligations.WbusyIsSticky := by
  intro s t h
  have he := step_statusEffect h
  generalize hi : s.inputs.head? = e at he
  refine ⟨fun hs ht => ?clear, fun hs ht => ?set⟩
  case clear =>
    cases he with
    | clear v _ _ wbusy =>
      obtain ⟨rest, hr⟩ := List.head?_eq_some_iff.mp hi
      exact .inl ⟨v, rest, hr, by simpa [wbusy, hs] using ht⟩
    | reset => exact .inr (List.head?_eq_some_iff.mp hi)
    | keep same => simp [same.wbusy, hs] at ht
    | drop a v _ _ _ _ wbusy => simp [wbusy] at ht
    | completeAtOnce v _ c => simp [c.wbusy, hs] at ht
    | start v i _ _ _ st => simp [st.wbusy, hs] at ht
    | coreCompletes _ _ c => simp [c.wbusy, hs] at ht
  case set =>
    cases he with
    | drop a v dropped was_busy =>
      obtain ⟨rest, hr⟩ := List.head?_eq_some_iff.mp hi
      exact ⟨was_busy, a, v, rest, hr, dropped⟩
    | keep same => simp [same.wbusy, hs] at ht
    | reset _ _ wbusy => simp [wbusy] at ht
    | clear v _ _ wbusy => simp [wbusy, hs] at ht
    | completeAtOnce v _ c => simp [c.wbusy, hs] at ht
    | start v i _ _ _ st => simp [st.wbusy, hs] at ht
    | coreCompletes _ _ c => simp [c.wbusy, hs] at ht

/-- Settles O18, by the ways a step can treat the status bits. -/
theorem doneRisesOnlyByCompletion : Obligations.DoneRisesOnlyByCompletion := by
  intro s t h
  have he := step_statusEffect h
  generalize hi : s.inputs.head? = e at he
  refine ⟨fun hs ht => ?rise, fun hs ht => ?fall⟩
  case rise =>
    cases he with
    | completeAtOnce v was_idle c =>
      obtain ⟨rest, hr⟩ := List.head?_eq_some_iff.mp hi
      exact ⟨c.busy, .inr ⟨was_idle, v, rest, hr⟩⟩
    | coreCompletes turn was_busy c =>
      subst hi
      exact ⟨c.busy, .inl ⟨was_busy, core_or_nil_of_head? turn⟩⟩
    | keep same => simp [same.done, hs] at ht
    | reset _ done => simp [done] at ht
    | clear v _ done => simp [done, hs] at ht
    | drop a v _ _ _ done => simp [done, hs] at ht
    | start v i _ _ _ st => simp [st.done] at ht
  case fall =>
    cases he with
    | start v i _ _ was_idle =>
      obtain ⟨rest, hr⟩ := List.head?_eq_some_iff.mp hi
      exact .inl ⟨v, rest, hr, was_idle⟩
    | clear v _ done =>
      obtain ⟨rest, hr⟩ := List.head?_eq_some_iff.mp hi
      exact .inr (.inl ⟨v, rest, hr, by simpa [done, hs] using ht⟩)
    | reset => exact .inr (.inr (List.head?_eq_some_iff.mp hi))
    | keep same => simp [same.done, hs] at ht
    | drop a v _ _ _ done => simp [done, hs] at ht
    | completeAtOnce v _ c => simp [c.done] at ht
    | coreCompletes _ _ c => simp [c.done] at ht

/-! ### The interrupt output (10_state.md R46) -/

theorem irq_iff (s : State) : s.irq = true ↔ s.ie = true ∧ s.done = true := Bool.and_eq_true_iff

theorem irq_eq_false_of_done {s : State} (h : s.done = false) : s.irq = false := by simp [State.irq, h]

theorem irq_eq_false_of_ie {s : State} (h : s.ie = false) : s.irq = false := by simp [State.irq, h]

/-- Settles O15, by what a write to `STATUS`, to `CTRL` and to `CMD` does to `DONE` and `IE`. -/
theorem irqFollowsEnableAndDone : Obligations.IrqFollowsEnableAndDone := by
  intro s t v
  refine ⟨irq_iff s, fun hv h => ?status, fun hv hb h => ?ctrl, fun hb h ht => ?cmd⟩
  case status =>
    obtain rfl : clearStatus v s = t := Host.Outcome.next.inj h
    exact irq_eq_false_of_done (by simp [hv])
  case ctrl =>
    obtain rfl : whenIdle (fun u => { u with ctrl := v &&& ctrlMask }) s = t := Host.Outcome.next.inj h
    rw [whenIdle_idle _ hb]
    exact ⟨irq_eq_false_of_ie ((ctrlMask_bits v).2.1.trans hv), rfl⟩
  case cmd =>
    obtain hc | ⟨_, _, _, hs⟩ := issue_idle_status hb h
    · simp [hc.busy] at ht
    · exact irq_eq_false_of_done hs.done

/-! ### What the host never sees (10_state.md R32, R44, R45) -/

/-- Settles O11, target by target: no arm of `BusRead` reads `KEY`, `CV` or `RK`. -/
theorem keyAndContextAreNeverReadable : Obligations.KeyAndContextAreNeverReadable := by
  intro s key cv rk a
  unfold busRead
  cases addrTarget a <;> rfl

/-! ### Reset (10_state.md R48) -/

/-- Settles O12: an unlisted byte of the buffer reads as `0x00`; the registers are closed values. -/
theorem resetStateHoldsResetValues : Obligations.ResetStateHoldsResetValues :=
  ⟨fun _ => rfl, by decide, rfl, rfl, rfl, rfl, rfl, rfl, rfl, rfl, rfl, rfl, rfl, rfl, rfl⟩

/-- Settles O57: the empty buffer is canonical, and an idle block owes nothing about a command in progress. -/
theorem resetMeetsInvariant : Obligations.ResetMeetsInvariant := by
  intro es
  have hidle : { State.reset with inputs := es }.busy ≠ true := Bool.false_ne_true
  exact
    { buf_wf := rfl
      ctrl_le := Nat.zero_le 3
      errcode_le := Nat.zero_le 4
      busy_done := fun h => absurd h hidle
      busy_errcode := fun h => absurd h hidle
      busy_command := fun h => absurd h hidle }

end Sys2Proof.Machine
end

section
/-! SUPPORT. The memory statements: what a host read and a host write do at each address, and that no sequence of host
accesses disturbs a busy command. -/

namespace Sys2Proof.Machine

/-! ### A host read, by address (20_memory.md R73) -/

theorem busRead_buf_busy {a : Byte} {s : State} (ha : a.toNat ≤ 0x3F) (hb : s.busy = true) :
    busRead a s = Config.anyByte s.draws := by
  simp only [busRead, addrTarget_buf ha, hb, if_true]

theorem busRead_buf_idle {a : Byte} {s : State} (ha : a.toNat ≤ 0x3F) (hb : s.busy = false) :
    busRead a s = readByte s.buf a.toNat := by
  simp [busRead, addrTarget_buf ha, hb]

/-- The write-only registers `KEY` and `CMD` read as `0x00`. -/
theorem busRead_key_cmd {a : Byte} (s : State) (h₁ : 0x40 ≤ a.toNat) (h₂ : a.toNat ≤ 0x50) : busRead a s = 0x00 := by
  rcases Nat.lt_or_eq_of_le h₂ with hkey | hcmd
  · simp only [busRead, addrTarget_key h₁ (Nat.le_of_lt_succ hkey)]
  · obtain rfl : a = 0x50#8 := BitVec.eq_of_toNat_eq hcmd
    rfl

theorem busRead_unmapped {a : Byte} (s : State) (h : 0x56 ≤ a.toNat) : busRead a s = 0x00 := by
  simp only [busRead, addrTarget_unmapped h]

theorem busRead_status (s : State) : busRead 0x51 s = s.status := rfl
theorem busRead_errcode (s : State) : busRead 0x52 s = s.errcode := rfl
theorem busRead_ctrl (s : State) : busRead 0x53 s = s.ctrlRead := rfl
theorem busRead_mlen (s : State) : busRead 0x54 s = s.mlen := rfl
theorem busRead_plen (s : State) : busRead 0x55 s = s.plen := rfl

theorem readDraws_buf_busy {a : Byte} {s : State} (ha : a.toNat ≤ 0x3F) (hb : s.busy = true) : readDraws a s = 1 := by
  simp only [readDraws, addrTarget_buf ha, hb, if_true]

theorem readDraws_buf_idle {a : Byte} {s : State} (ha : a.toNat ≤ 0x3F) (hb : s.busy = false) : readDraws a s = 0 := by
  simp [readDraws, addrTarget_buf ha, hb]

theorem err_iff (s : State) : s.err = true ↔ s.errcode ≠ 0x00 := bne_iff_ne

/-- Settles O6, by the equation of `busRead` at each address. -/
theorem busReadFollowsTheMap : Obligations.BusReadFollowsTheMap := by
  intro s a rest hi
  refine ⟨hostRead a (takeEvent rest s), busRead a s, step_read hi, rfl, fun ha hb => ?bufBusy,
    fun ha hb => ?bufIdle, fun h₁ h₂ => ?keyCmd, ?status, ?errcode, ?ctrl, ?mlen, ?plen, fun ha => ?unmapped⟩
  case bufBusy =>
    have hdraw : readDraws a (takeEvent rest s) = 1 := readDraws_buf_busy ha hb
    exact ⟨busRead_buf_busy ha hb, congrArg (s.draws + ·) hdraw⟩
  case bufIdle => exact busRead_buf_idle ha hb
  case keyCmd => exact busRead_key_cmd s h₁ h₂
  case status =>
    rintro rfl
    obtain ⟨hbusy, hdone, herr, hwbusy, hlt⟩ := status_bits s
    rw [busRead_status, herr]
    exact ⟨hbusy, hdone, err_iff s, hwbusy, hlt⟩
  case errcode =>
    rintro rfl
    exact busRead_errcode s
  case ctrl =>
    rintro rfl
    exact ctrlMask_bits s.ctrl
  case mlen =>
    rintro rfl
    exact busRead_mlen s
  case plen =>
    rintro rfl
    exact busRead_plen s
  case unmapped => exact busRead_unmapped s ha

/-- The step of a `BUF` read while busy shows the next free byte and takes one draw (20_memory.md R81). -/
theorem step_read_buf_busy {s : State} {a : Byte} {rest : List Event} (ha : a.toNat ≤ 0x3F) (hb : s.busy = true)
    (hi : s.inputs = .read a :: rest) :
    step s = .next { s with inputs := rest, rdata := some (Config.anyByte s.draws), draws := s.draws + 1 } := by
  have hbusy : (takeEvent rest s).busy = true := hb
  rw [step_read hi, hostRead, busRead_buf_busy ha hbusy, readDraws_buf_busy ha hbusy]
  rfl

/-- Settles O7: the first read leaves the block busy, with one draw taken. -/
theorem busyBufferReadsAreFreshDraws : Obligations.BusyBufferReadsAreFreshDraws := by
  intro s a b rest hb ha hb' hi
  exact ⟨_, _, step_read_buf_busy ha hb hi, step_read_buf_busy hb' hb rfl, rfl, rfl, rfl, hb⟩

/-! ### A host write, by address (20_memory.md R74) -/

theorem busWrite_buf {a : Byte} (v : Byte) (s : State) (ha : a.toNat ≤ 0x3F) :
    busWrite a v s = .next (whenIdle (fun t => { t with buf := writeByte t.buf a.toNat v }) s) := by
  rw [busWrite, addrTarget_buf ha]

theorem busWrite_key {a : Byte} (v : Byte) (s : State) (h₁ : 0x40 ≤ a.toNat) (h₂ : a.toNat ≤ 0x4F) :
    busWrite a v s = .next (whenIdle (writeKey ⟨a.toNat - 0x40, by omega⟩ v) s) := by
  rw [busWrite, addrTarget_key h₁ h₂]

theorem busWrite_cmd (v : Byte) (s : State) : busWrite 0x50 v s = issue v s := rfl
theorem busWrite_status (v : Byte) (s : State) : busWrite 0x51 v s = .next (clearStatus v s) := rfl
theorem busWrite_errcode (v : Byte) (s : State) : busWrite 0x52 v s = .next s := rfl
theorem busWrite_ctrl (v : Byte) (s : State) :
    busWrite 0x53 v s = .next (whenIdle (fun t => { t with ctrl := v &&& ctrlMask }) s) := rfl
theorem busWrite_mlen (v : Byte) (s : State) :
    busWrite 0x54 v s = .next (whenIdle (fun t => { t with mlen := v }) s) := rfl
theorem busWrite_plen (v : Byte) (s : State) :
    busWrite 0x55 v s = .next (whenIdle (fun t => { t with plen := v }) s) := rfl

theorem busWrite_unmapped {a : Byte} (v : Byte) (s : State) (h : 0x56 ≤ a.toNat) : busWrite a v s = .next s := by
  rw [busWrite, addrTarget_unmapped h]

theorem clearStatus_eq (v : Byte) (s : State) :
    clearStatus v s = { s with
      done := if v.getLsbD 1 = true then false else s.done
      wbusy := if v.getLsbD 3 = true then false else s.wbusy } := by
  unfold clearStatus
  cases v.getLsbD 1 <;> cases v.getLsbD 3 <;> simp

theorem issue_command {v : Byte} {i : Instr} (s : State) (hd : decode v = .ok i) : issue v s = exec i s := by
  simp only [issue, hd]

theorem issue_illegal_idle {v : Byte} {s : State} {e : DecodeReject} (hb : s.busy = false) (hd : decode v = .error e) :
    issue v s = .next { s with done := true, errcode := 0x04 } := by
  simp only [issue, hd, issueIllegal, issueWith_idle _ hb]
  exact congrArg _ (complete_beginIssue .illegalCmd hb)

/-- A busy block drops every write to `BUF`, `KEY`, `CMD`, `CTRL`, `MLEN` and `PLEN` (20_memory.md R82). -/
theorem busWrite_busy {a : Byte} (v : Byte) {s : State} (hb : s.busy = true) (ha : DroppedWhileBusy a) :
    busWrite a v s = .next (dropWrite s) := by
  have hdrop (act : State → State) :
      (.next (whenIdle act s) : Host.Outcome State Fault Refusal) = .next (dropWrite s) :=
    congrArg _ (whenIdle_busy act hb)
  rcases addrTarget_cases a with ⟨h, -⟩ | ⟨h₁, h₂, -⟩ | rfl | rfl | rfl | rfl | rfl | rfl | ⟨h, -⟩
  · exact (busWrite_buf v s h).trans (hdrop _)
  · exact (busWrite_key v s h₁ h₂).trans (hdrop _)
  · exact (busWrite_cmd v s).trans (issue_busy hb)
  · exact absurd ha (by unfold DroppedWhileBusy; decide)
  · exact absurd ha (by unfold DroppedWhileBusy; decide)
  · exact (busWrite_ctrl v s).trans (hdrop _)
  · exact (busWrite_mlen v s).trans (hdrop _)
  · exact (busWrite_plen v s).trans (hdrop _)
  · exact absurd ha (by unfold DroppedWhileBusy; omega)

/-- Settles O8, by the equation of `busWrite` at each address. -/
theorem busWriteFollowsTheMap : Obligations.BusWriteFollowsTheMap := by
  intro s a v
  refine ⟨?status, ?readOnly, fun hb h h₁ h₂ => ?dropped, fun hb ha => ?buf, fun hb h₁ h₂ => ?key, ?command, ?illegal,
    ?ctrl, ?mlen, ?plen⟩
  case status =>
    rintro rfl
    rw [busWrite_status, clearStatus_eq]
  case readOnly =>
    rintro (rfl | ha)
    · exact busWrite_errcode v s
    · exact busWrite_unmapped v s ha
  case dropped => exact busWrite_busy v hb (by unfold DroppedWhileBusy; bv_omega)
  case buf =>
    rw [busWrite_buf v s ha, whenIdle_idle _ hb]
    exact ⟨_, rfl, rfl, fun x => readByte_writeByte s.buf a.toNat x v⟩
  case key =>
    rw [busWrite_key v s h₁ h₂, whenIdle_idle _ hb]
    refine ⟨_, rfl, rfl, fun k => ?_⟩
    simp [Vector.getElem_set, eq_comm]
  case command =>
    rintro hb rfl i hd
    exact issue_command s hd
  case illegal =>
    rintro hb rfl e hd
    exact issue_illegal_idle hb hd
  case ctrl =>
    rintro hb rfl
    rw [busWrite_ctrl, whenIdle_idle _ hb]
    exact ⟨_, rfl, rfl, ctrlMask_bits v⟩
  case mlen =>
    rintro hb rfl
    rw [busWrite_mlen, whenIdle_idle _ hb]
  case plen =>
    rintro hb rfl
    rw [busWrite_plen, whenIdle_idle _ hb]

/-! ### Writes while busy (20_memory.md R82) -/

/-- Settles O9: the step is the write, which a busy block drops unless it goes to `STATUS`. -/
theorem busyWriteOnlySetsWbusy : Obligations.BusyWriteOnlySetsWbusy := by
  intro s a v rest hb hi
  refine ⟨fun ha => ?dropped, ?status⟩
  case dropped =>
    have hdropped : DroppedWhileBusy a := by unfold DroppedWhileBusy; bv_omega
    exact (step_write hi).trans (busWrite_busy v (s := takeEvent rest s) hb hdropped)
  case status =>
    rintro rfl
    rw [step_write hi, busWrite_status, clearStatus_eq]
    rfl

/-- Settles O19: the busy check stands before the accept routine of every command. -/
theorem commandWhileBusyIsDropped : Obligations.CommandWhileBusyIsDropped :=
  fun i _ hb => exec_busy i hb

/-! ### Read after write (20_memory.md R79) -/

theorem step_write_buf_idle {s : State} {a v : Byte} {rest : List Event} (ha : a.toNat ≤ 0x3F) (hb : s.busy = false)
    (hi : s.inputs = .write a v :: rest) :
    step s = .next { s with inputs := rest, rdata := none, buf := writeByte s.buf a.toNat v } := by
  have hidle : (takeEvent rest s).busy = false := hb
  rw [step_write hi, busWrite_buf v _ ha, whenIdle_idle _ hidle]
  rfl

theorem step_read_buf_idle {s : State} {a : Byte} {rest : List Event} (ha : a.toNat ≤ 0x3F) (hb : s.busy = false)
    (hi : s.inputs = .read a :: rest) :
    step s = .next { s with inputs := rest, rdata := some (readByte s.buf a.toNat) } := by
  have hidle : (takeEvent rest s).busy = false := hb
  rw [step_read hi, hostRead, busRead_buf_idle ha hidle, readDraws_buf_idle ha hidle]
  rfl

/-- Settles O10: the read finds the buffer after one one-byte store. -/
theorem bufferReadsBackWhatWasWritten : Obligations.BufferReadsBackWhatWasWritten := by
  intro s a b v rest hb ha hb' hi
  refine ⟨_, _, step_write_buf_idle ha hb hi, step_read_buf_idle hb' hb rfl, congrArg some ?_, rfl⟩
  simp only [readByte_writeByte, BitVec.toNat_inj]

/-! ### Sequences of host accesses while busy (20_memory.md R82, 42_cbc_engine.md R206) -/

/-- `t` is `s` but for the events to come, which are `rest`, and what a host access can change while busy. -/
def BusyHostFrame (rest : List Event) (s t : State) : Prop :=
  t = { s with inputs := rest, rdata := t.rdata, done := t.done, wbusy := t.wbusy, draws := t.draws }

theorem BusyHostFrame.busy {rest : List Event} {s t : State} (h : BusyHostFrame rest s t) :
    t.busy = s.busy := by
  rw [h]
  rfl

theorem BusyHostFrame.inputs {rest : List Event} {s t : State} (h : BusyHostFrame rest s t) :
    t.inputs = rest := by
  rw [h]

theorem BusyHostFrame.trans {rest rest' : List Event} {s t u : State} (h₁ : BusyHostFrame rest s t)
    (h₂ : BusyHostFrame rest' t u) : BusyHostFrame rest' s u :=
  Eq.trans h₂ (by rw [h₁])

theorem runSteps_host_busy {es rest : List Event} {s : State} (hb : s.busy = true) (he : es.all isHostEvent = true)
    (hi : s.inputs = es ++ rest) : ∃ t, runSteps es.length s = .next t ∧ BusyHostFrame rest s t := by
  induction es generalizing s with
  | nil =>
    obtain rfl : s.inputs = rest := hi
    exact ⟨s, rfl, rfl⟩
  | cons e es ih =>
    rw [List.all_cons, Bool.and_eq_true] at he
    obtain ⟨t, ht, hst⟩ := step_host_busy hb he.1 hi
    have hst : BusyHostFrame (es ++ rest) s t := hst
    obtain ⟨u, hu, htu⟩ := ih (hst.busy.trans hb) he.2 hst.inputs
    exact ⟨u, (runSteps_succ_of_next ht).trans hu, hst.trans htu⟩

/-- Settles O55, by induction on the host's accesses: each leaves the block busy. -/
theorem hostCannotDisturbBusyCommand : Obligations.HostCannotDisturbBusyCommand :=
  fun _ _ _ hb he hi => runSteps_host_busy hb he hi

end Sys2Proof.Machine
end

section
/-! SUPPORT. The encoding statements: the decoder by the fields of a byte, the issue of a byte, and the frames of an issue
and of a core step. -/

namespace Sys2Proof.Machine

/-! ### The decoder by the fields of a byte (30_encoding.md R100 to R103) -/

/-- Packing fields into a byte loses nothing (30_encoding.md R100). -/
@[simp] theorem cmdFields_byte (f : CmdFields) : cmdFields f.byte = f := by
  obtain ⟨rsv, op⟩ := f
  exact congrArg₂ CmdFields.mk BitVec.extractLsb'_append_eq_left BitVec.extractLsb'_append_eq_right

@[simp] theorem instrOfOpcode_opcode (i : Instr) : instrOfOpcode (opcode i).toNat = some i := by
  cases i <;> rfl

theorem instrOfOpcode_reserved {n : Nat} (h : 6 ≤ n) : instrOfOpcode n = none := by
  obtain ⟨k, rfl⟩ := Nat.exists_eq_add_of_le' h
  rfl

theorem cmdFields_rsvZero_iff (v : Byte) : (cmdFields v).rsvZero = true ↔ v.extractLsb' 4 4 = 0#4 := beq_iff_eq

theorem decode_reservedBits {v : Byte} (hr : v.extractLsb' 4 4 ≠ 0#4) : decode v = .error .reservedBits :=
  if_neg (mt (cmdFields_rsvZero_iff v).mp hr)

theorem decode_reservedOpcode {v : Byte} (hr : v.extractLsb' 4 4 = 0#4) (ho : 6 ≤ (v.extractLsb' 0 4).toNat) :
    decode v = .error .reservedOpcode := by
  have hnone : instrOfOpcode (cmdFields v).op.toNat = none := instrOfOpcode_reserved ho
  rw [decode, if_pos ((cmdFields_rsvZero_iff v).mpr hr), hnone]

/-- Every byte whose fields are not those of a command is rejected (30_encoding.md R103). -/
theorem decode_illegal {v : Byte} (h : v.extractLsb' 4 4 ≠ 0#4 ∨ 6 ≤ (v.extractLsb' 0 4).toNat) :
    ∃ e, decode v = .error e := by
  by_cases hr : v.extractLsb' 4 4 = 0#4
  · exact ⟨_, decode_reservedOpcode hr (h.resolve_left (not_not_intro hr))⟩
  · exact ⟨_, decode_reservedBits hr⟩

theorem toNat_rsv (v : Byte) : (v.extractLsb' 4 4).toNat = v.toNat / 16 := by
  rw [BitVec.extractLsb'_toNat, Nat.shiftRight_eq_div_pow]
  omega

theorem toNat_op (v : Byte) : (v.extractLsb' 0 4).toNat = v.toNat % 16 := BitVec.extractLsb'_toNat ..

theorem rsv_eq_zero_iff (v : Byte) : v.extractLsb' 4 4 = 0#4 ↔ v.toNat < 16 := by
  rw [← BitVec.toNat_inj, toNat_rsv, BitVec.toNat_ofNat]
  omega

/-- Settles O1: the fields of the byte are the command's own, `RSV = 0000` and its opcode. -/
theorem encodedCommandDecodesToItself : Obligations.EncodedCommandDecodesToItself := by
  intro i
  have hfields : cmdFields (encode i) = i.fields := cmdFields_byte i.fields
  have hop : instrOfOpcode i.fields.op.toNat = some i := instrOfOpcode_opcode i
  have hrsv : i.fields.rsvZero = true := rfl
  rw [decode, hfields, if_pos hrsv, hop]

/-- Settles O2: the six commands by O1, the reserved bytes by their fields `v / 16` and `v % 16`. -/
theorem opcodeMap : Obligations.OpcodeMap := by
  refine ⟨encodedCommandDecodesToItself .nop, encodedCommandDecodesToItself .pad, encodedCommandDecodesToItself .unpad,
    encodedCommandDecodesToItself .enc, encodedCommandDecodesToItself .dec, encodedCommandDecodesToItself .zeroize,
    fun v h₁ h₂ => ?opcode, fun v h => ?bits⟩
  case opcode =>
    refine decode_reservedOpcode ((rsv_eq_zero_iff v).mpr (by omega)) ?_
    rw [toNat_op]
    omega
  case bits => exact decode_reservedBits (mt (rsv_eq_zero_iff v).mp (by omega))

/-! ### The step that issues a byte (30_encoding.md R106) -/

/-- Settles O4: the event is the write that issues the command, and taking it clears `rdata`. -/
theorem stepRunsDecodedCommand : Obligations.StepRunsDecodedCommand :=
  fun _ _ _ _ hi hd => step_command hi hd

/-- What a table word decodes to is what its low byte, the byte the host presents, decodes to. -/
theorem decode_of_decodeTableWord {nbits w : Nat} {i : Instr} (h : decodeTableWord nbits w = some i) :
    decode (BitVec.ofNat 8 (w % 2 ^ nbits)) = .ok i := by
  unfold decodeTableWord tableByte at h
  by_cases hw : w % 2 ^ nbits < 256
  · rw [if_pos hw] at h
    cases hd : decode (BitVec.ofNat 8 (w % 2 ^ nbits)) with
    | ok k => simpa [hd, Except.toOption] using h
    | error e => simp [hd, Except.toOption] at h
  · simp [if_neg hw] at h

/-- Settles O3: the placed word is the next event, a write of its byte to `CMD`. -/
theorem placedTableWordIsRunNext : Obligations.PlacedTableWordIsRunNext := by
  intro s w i _ h
  exact step_command (s := s.withFetchWord 8 w) rfl (decode_of_decodeTableWord h)

/-- Settles O20: the decoder rejects the byte, and the issue of a rejected byte completes inside the host step. -/
theorem illegalByteCompletesAtOnce : Obligations.IllegalByteCompletesAtOnce := by
  intro s v hb h
  obtain ⟨e, hd⟩ := decode_illegal h
  exact (busWrite_cmd v s).trans (issue_illegal_idle hb hd)

/-! ### The frame of an issue (30_encoding.md R101, R106) -/

@[simp] theorem acceptOf_buf (i : Instr) (s : State) : (acceptOf i s).buf = s.buf := by
  obtain ⟨c, h⟩ | ⟨op, h⟩ | ⟨op, -, h⟩ := acceptOf_cases i s <;> simp [h]

@[simp] theorem acceptOf_wbusy (i : Instr) (s : State) : (acceptOf i s).wbusy = s.wbusy := by
  obtain ⟨c, h⟩ | ⟨op, h⟩ | ⟨op, -, h⟩ := acceptOf_cases i s <;> simp [h]

/-- An accept routine writes nothing but `STATUS`, `ERRCODE` and `FSM` (and may take a draw). -/
theorem acceptOf_frame (i : Instr) (s : State) :
    acceptOf i s = { s with
      done := (acceptOf i s).done, errcode := (acceptOf i s).errcode, fsm := (acceptOf i s).fsm,
      wbusy := (acceptOf i s).wbusy, draws := (acceptOf i s).draws } := by
  obtain ⟨c, h⟩ | ⟨op, h⟩ | ⟨op, -, h⟩ := acceptOf_cases i s <;> rw [h] <;> rfl

/-- Settles O22: while busy the write is dropped; while idle the accept routine runs. -/
theorem issueFrame : Obligations.IssueFrame := by
  intro i s t h
  cases hb : s.busy with
  | true =>
    obtain rfl : dropWrite s = t := Host.Outcome.next.inj ((exec_busy i hb).symm.trans h)
    exact ⟨fun _ => rfl, rfl, by simp⟩
  | false =>
    obtain rfl : acceptOf i (beginIssue s) = t := Host.Outcome.next.inj ((exec_idle i hb).symm.trans h)
    exact ⟨fun x => by simp, acceptOf_frame i (beginIssue s), by simp⟩

/-! ### The frame of a core step (30_encoding.md R101) -/

theorem inRun_next {f : State → Host.Outcome State Fault Refusal} {s t : State} (h : inRun f s = .next t) :
    f s = .next t := by
  unfold inRun at h
  split at h
  · exact h
  · cases h

theorem busyStep_pad {s : State} (hop : s.fsm.op = .pad) : busyStep s = inRun padStep s := by simp only [busyStep, hop]

theorem busyStep_unpad {s : State} (hop : s.fsm.op = .unpad) : busyStep s = inRun unpadStep s := by
  simp only [busyStep, hop]

theorem busyStep_enc {s : State} (hop : s.fsm.op = .enc) : busyStep s = encStep s := by simp only [busyStep, hop]

theorem busyStep_dec {s : State} (hop : s.fsm.op = .dec) : busyStep s = decStep s := by simp only [busyStep, hop]

theorem busyStep_zeroize {s : State} (hop : s.fsm.op = .zeroize) : busyStep s = inRun zeroizeStep s := by
  simp only [busyStep, hop]

/-- `ENC` and `DEC` share their key-expansion step (42_cbc_engine.md R203, R205). -/
theorem busyStep_kexp {s : State} (hop : s.fsm.op = .enc ∨ s.fsm.op = .dec) (hp : s.fsm.phase = .kexp) :
    busyStep s = .next (keyExpandStep s) := by
  rcases hop with hop | hop
  · simp only [busyStep_enc hop, encStep, hp]
  · simp only [busyStep_dec hop, decStep, hp]

/-- A block step of `ENC` or `DEC` ends in `finishBlock` (42_cbc_engine.md R203, R205). -/
theorem busyStep_blk_next {s t : State} (hop : s.fsm.op = .enc ∨ s.fsm.op = .dec) (hp : s.fsm.phase = .blk)
    (h : busyStep s = .next t) : ∃ out chain, t = finishBlock out chain s := by
  have hne : s.fsm.phase ≠ .kexp := by simp [hp]
  rcases hop with hop | hop
  · obtain ⟨hk, -⟩ | ⟨-, -, ht⟩ := encStep_next ((busyStep_enc hop).symm.trans h)
    · exact absurd hk hne
    · exact ⟨_, _, ht⟩
  · obtain ⟨hk, -⟩ | ⟨-, -, ht⟩ := decStep_next ((busyStep_dec hop).symm.trans h)
    · exact absurd hk hne
    · exact ⟨_, _, ht⟩

theorem padStep_frame {s t : State} (h : padStep s = .next t) :
    (∀ x, x < s.mlen.toNat ∨ s.mlen.toNat + padValue s.mlen.toNat ≤ x → readByte t.buf x = readByte s.buf x) ∧
      t = { s with buf := t.buf, plen := t.plen, done := t.done, errcode := t.errcode, fsm := t.fsm } := by
  obtain ⟨-, rfl⟩ := padStep_next h
  refine ⟨fun x hx => ?_, rfl⟩
  exact readByte_memWrite_outside _ _ (by rwa [length_rep])

theorem unpadStep_frame {s t : State} (h : unpadStep s = .next t) :
    (∀ x, readByte t.buf x = readByte s.buf x) ∧
      t = { s with mlen := t.mlen, done := t.done, errcode := t.errcode, fsm := t.fsm } := by
  obtain ⟨-, ⟨-, rfl⟩ | ⟨-, rfl⟩⟩ := unpadStep_next h
  · exact ⟨fun _ => rfl, rfl⟩
  · exact ⟨fun _ => rfl, rfl⟩

@[simp] theorem finishBlock_buf (out chain : Block) (s : State) :
    (finishBlock out chain s).buf = writeBlock s.buf s.fsm.j out := by
  obtain ⟨-, h⟩ | ⟨-, h⟩ := finishBlock_cases out chain s <;> simp [h]

theorem finishBlock_frame (out chain : Block) (s : State) :
    finishBlock out chain s = { s with
      buf := (finishBlock out chain s).buf, cv := (finishBlock out chain s).cv, done := (finishBlock out chain s).done,
      errcode := (finishBlock out chain s).errcode, fsm := (finishBlock out chain s).fsm } := by
  obtain ⟨-, h⟩ | ⟨-, h⟩ := finishBlock_cases out chain s
  · rw [h]
    rfl
  · rw [h]

theorem readByte_writeBlock_outside (m : Memory) {j x : Nat} (b : Block) (h : x < 16 * j ∨ 16 * j + 16 ≤ x) :
    readByte (writeBlock m j b) x = readByte m x := by
  rw [readByte_writeBlock, dif_neg (by omega)]

/-- Settles O23: the core step of the command in progress, and the bytes its store leaves. -/
theorem coreStepFrame : Obligations.CoreStepFrame := by
  intro s t hb h
  rw [coreStep_busy hb] at h
  refine ⟨fun hop => ?pad, fun hop => ?unpad, fun hop hp => ?kexp, fun hop hp => ?blk, fun hop => ?zeroize⟩
  case pad => exact padStep_frame (inRun_next ((busyStep_pad hop).symm.trans h))
  case unpad => exact unpadStep_frame (inRun_next ((busyStep_unpad hop).symm.trans h))
  case kexp =>
    obtain rfl : keyExpandStep s = t := Host.Outcome.next.inj ((busyStep_kexp hop hp).symm.trans h)
    exact ⟨fun _ => rfl, rfl⟩
  case blk =>
    obtain ⟨out, chain, rfl⟩ := busyStep_blk_next hop hp h
    refine ⟨fun x hx => ?_, finishBlock_frame out chain s⟩
    rw [finishBlock_buf, readByte_writeBlock_outside _ _ hx]
  case zeroize =>
    obtain rfl : complete .none (zeroized s) = t :=
      Host.Outcome.next.inj (inRun_next ((busyStep_zeroize hop).symm.trans h))
    refine ⟨fun x hx => ?_, rfl⟩
    simp [readByte_clearBuffer, Nat.not_lt.mpr hx]

end Sys2Proof.Machine
end

section
/-! SUPPORT. The padder's statements: the padded buffer byte by byte, what the padding check accepts, `PAD` and `UNPAD` from
issue to completion, and their round trip. -/

namespace Sys2Proof.Machine

/-! ### The padding function and the padded buffer (40_padder.md R130) -/

theorem padLen_mod (m : Nat) : padLen m % 16 = 0 := Nat.mul_mod_left ..

theorem padLen_pos (m : Nat) : 1 ≤ padLen m := by
  rw [← add_padValue]
  exact (padValue_pos m).trans (Nat.le_add_left ..)

theorem padLen_sub_self (m : Nat) : padLen m - m = padValue m := by
  rw [← add_padValue, Nat.add_sub_cancel_left]

theorem padLen_sub_padValue (m : Nat) : padLen m - padValue m = m := by
  rw [← add_padValue, Nat.add_sub_cancel]

/-- The padded length fits the buffer exactly for the messages `PAD` accepts. -/
theorem lt_padLen_iff (m : Nat) : 64 < padLen m ↔ 64 ≤ m := by
  unfold padLen Config.blockSize
  omega

theorem toNat_ofNat_padValue (m : Nat) : (BitVec.ofNat 8 (padValue m)).toNat = padValue m := by
  have hle := padValue_le m
  rw [BitVec.toNat_ofNat, Nat.mod_eq_of_lt (by omega)]

theorem toNat_ofNat_padLen {m : Nat} (h : m < 64) : (BitVec.ofNat 8 (padLen m)).toNat = padLen m := by
  have hle := padLen_le h
  rw [BitVec.toNat_ofNat, Nat.mod_eq_of_lt (by omega)]

theorem readByte_padBuffer (b : Memory) (m x : Nat) :
    readByte (padBuffer b m) x = if m ≤ x ∧ x < padLen m then BitVec.ofNat 8 (padValue m) else readByte b x := by
  rw [padBuffer, readByte_memWrite, length_rep, add_padValue]
  split
  next hx => exact getD_rep _ _ (by have := add_padValue m; omega)
  next => rfl

theorem readByte_padBuffer_message (b : Memory) {m x : Nat} (h : x < m) : readByte (padBuffer b m) x = readByte b x := by
  rw [readByte_padBuffer, if_neg (by omega)]

theorem readByte_padBuffer_padding (b : Memory) {m x : Nat} (h₁ : m ≤ x) (h₂ : x < padLen m) :
    readByte (padBuffer b m) x = BitVec.ofNat 8 (padValue m) := by
  rw [readByte_padBuffer, if_pos ⟨h₁, h₂⟩]

/-- The pad byte of a padded buffer is the pad value. -/
theorem padByte_padBuffer (b : Memory) (m : Nat) : padByte (padLen m) (padBuffer b m) = BitVec.ofNat 8 (padValue m) := by
  have hadd := add_padValue m
  have hpos := padValue_pos m
  exact readByte_padBuffer_padding b (by omega) (by omega)

/-- Settles O26, by the bytes that `MemWrite` stores. -/
theorem paddingFunction : Obligations.PaddingFunction := by
  intro m
  have hvalue : padValue m = 16 - m % 16 := rfl
  have hwhole : padValue m = 16 ↔ m % 16 = 0 := by omega
  exact ⟨rfl, (padLen_sub_self m).symm, hvalue, padValue_pos m, padValue_le m, hwhole,
    fun b x => readByte_padBuffer b m x⟩

/-! ### The padding check (40_padder.md R134) -/

theorem padBytesEqual_iff {len : Nat} {b : Memory} (h : (padByte len b).toNat ≤ len) :
    padBytesEqual len b = true ↔ ∀ i, len - (padByte len b).toNat ≤ i → i < len → readByte b i = padByte len b := by
  simp only [padBytesEqual, memRead, List.all_map, List.all_eq_true, List.mem_range, Function.comp_apply, beq_iff_eq]
  refine ⟨fun hall i h₁ h₂ => ?_, fun hall k hk => hall _ (by omega) (by omega)⟩
  simpa [Nat.add_sub_cancel' h₁] using hall (i - (len - (padByte len b).toNat)) (by omega)

theorem padOK_iff (len : Nat) (b : Memory) (strict : Bool) :
    padOK len b strict = true ↔
      len ≠ 0 ∧ 1 ≤ (padByte len b).toNat ∧ (padByte len b).toNat ≤ 16 ∧ (padByte len b).toNat ≤ len ∧
        (strict = true → ∀ i, len - (padByte len b).toNat ≤ i → i < len → readByte b i = padByte len b) := by
  by_cases hlen : len = 0
  · simp [padOK, hlen]
  by_cases hrange : 1 ≤ (padByte len b).toNat ∧ (padByte len b).toNat ≤ 16
  · by_cases hle : (padByte len b).toNat ≤ len
    · cases strict with
      | false => simp [padOK, hlen, hrange, hle]
      | true => simpa [padOK, hlen, hrange, hle] using padBytesEqual_iff hle
    · simp [padOK, hlen, hrange, hle]
  · rw [← and_assoc (a := 1 ≤ _)]
    simp [padOK, hlen, hrange]

/-- Settles O31: the tests of `padOK` in their order, with its strict loop read as a bounded quantifier. -/
theorem paddingCheck : Obligations.PaddingCheck := fun len b strict _ => padOK_iff len b strict

/-- A check that passes strict passes loose, since only the strict loop reads the mode bit. -/
theorem padOK_loose_of_strict {len : Nat} {b : Memory} (h : padOK len b true = true) : padOK len b false = true := by
  rw [padOK_iff] at h ⊢
  obtain ⟨hlen, hpos, hle, hfits, -⟩ := h
  exact ⟨hlen, hpos, hle, hfits, fun hs => absurd hs Bool.false_ne_true⟩

/-- What `PAD` writes passes the check, loose and strict. -/
theorem padOK_padBuffer (b : Memory) (m : Nat) (strict : Bool) : padOK (padLen m) (padBuffer b m) strict = true := by
  have hpos := padLen_pos m
  have hfits : padValue m ≤ padLen m := add_padValue m ▸ Nat.le_add_left ..
  rw [padOK_iff, padByte_padBuffer, toNat_ofNat_padValue, padLen_sub_padValue]
  exact ⟨by omega, padValue_pos m, padValue_le m, hfits, fun _ _ h₁ h₂ => readByte_padBuffer_padding b h₁ h₂⟩

/-- A core step of `UNPAD` completes with code 0 only if the check passed (40_padder.md R135). -/
theorem padOK_of_unpadStep {s t : State} (h : unpadStep s = .next t) (ht : t.errcode = 0x00) :
    s.plen.toNat ≤ 64 ∧ padOK s.plen.toNat s.buf s.strict = true ∧
      t.mlen = BitVec.ofNat 8 (s.plen.toNat - (padByte s.plen.toNat s.buf).toNat) := by
  obtain ⟨hle, ⟨hok, rfl⟩ | ⟨-, rfl⟩⟩ := unpadStep_next h
  · exact ⟨hle, hok, rfl⟩
  · exact absurd ht (by decide : ErrCode.paddingError.code ≠ 0x00)

/-- The core step of an `UNPAD` whose check passes (40_padder.md R135). -/
theorem unpadStep_of_padOK {s : State} (h : s.plen.toNat ≤ 64) (hok : padOK s.plen.toNat s.buf s.strict = true) :
    unpadStep s =
      .next (complete .none { s with mlen := BitVec.ofNat 8 (s.plen.toNat - (padByte s.plen.toNat s.buf).toNat) }) := by
  rw [unpadStep_eq h, if_pos hok]

/-- The core step of an `UNPAD` whose check fails (40_padder.md R135). -/
theorem unpadStep_of_not_padOK {s : State} (h : s.plen.toNat ≤ 64) (hok : padOK s.plen.toNat s.buf s.strict = false) :
    unpadStep s = .next (complete .paddingError s) := by
  rw [unpadStep_eq h, if_neg (by simp [hok])]

/-- Settles O33: the strict step succeeded, so its check passed, and so does the loose one on the same buffer. -/
theorem strictAcceptsSubsetOfLoose : Obligations.StrictAcceptsSubsetOfLoose := by
  refine ⟨fun _ _ => padOK_loose_of_strict, fun s t h ht => ?_⟩
  obtain ⟨hle, hok, hmlen⟩ := padOK_of_unpadStep h ht
  have hstrict : State.strict { s with ctrl := 0x01 } = true := (by decide : (0x01 : Byte).getLsbD 0 = true)
  have hloose : State.strict { s with ctrl := 0x00 } = false := (by decide : (0x00 : Byte).getLsbD 0 = false)
  rw [hstrict] at hok
  exact ⟨_, unpadStep_of_padOK hle (hloose ▸ padOK_loose_of_strict hok), rfl, hmlen.symm⟩

/-! ### Issue (40_padder.md R131, R133) -/

theorem padAccept_refused {s : State} (h : 64 ≤ s.mlen.toNat) : padAccept s = complete .messageTooLarge s := if_pos h

theorem padAccept_accepted {s : State} (h : s.mlen.toNat < 64) : padAccept s = startRun .pad s :=
  if_neg (Nat.not_le.mpr h)

theorem unpadAccept_refused {s : State} (h : 64 < s.plen.toNat) : unpadAccept s = complete .invalidInput s := if_pos h

theorem unpadAccept_accepted {s : State} (h : s.plen.toNat ≤ 64) : unpadAccept s = startRun .unpad s :=
  if_neg (Nat.not_lt.mpr h)

theorem exec_pad_refused {s : State} (hb : s.busy = false) (h : 64 ≤ s.mlen.toNat) :
    exec .pad s = .next { s with done := true, errcode := 0x02 } :=
  (exec_idle .pad hb).trans
    (congrArg _ ((padAccept_refused (s := beginIssue s) h).trans (complete_beginIssue _ hb)))

theorem exec_pad_accepted {s : State} (hb : s.busy = false) (h : s.mlen.toNat < 64) :
    exec .pad s = .next (startRun .pad (beginIssue s)) :=
  (exec_idle .pad hb).trans (congrArg _ (padAccept_accepted (s := beginIssue s) h))

theorem exec_unpad_refused {s : State} (hb : s.busy = false) (h : 64 < s.plen.toNat) :
    exec .unpad s = .next { s with done := true, errcode := 0x03 } :=
  (exec_idle .unpad hb).trans
    (congrArg _ ((unpadAccept_refused (s := beginIssue s) h).trans (complete_beginIssue _ hb)))

theorem exec_unpad_accepted {s : State} (hb : s.busy = false) (h : s.plen.toNat ≤ 64) :
    exec .unpad s = .next (startRun .unpad (beginIssue s)) :=
  (exec_idle .unpad hb).trans (congrArg _ (unpadAccept_accepted (s := beginIssue s) h))

/-- Settles O27, by the two ways the accept check of `PAD` goes. -/
theorem Padder.padAccept : Obligations.PadAccept :=
  ⟨rfl, fun s hb =>
    ⟨(lt_padLen_iff s.mlen.toNat).symm, exec_pad_refused hb,
      fun h => ⟨_, exec_pad_accepted hb h, rfl, rfl, rfl, rfl, rfl⟩⟩⟩

/-- Settles O30, by the two ways the accept check of `UNPAD` goes. -/
theorem Padder.unpadAccept : Obligations.UnpadAccept :=
  ⟨rfl, fun _ hb =>
    ⟨exec_unpad_refused hb, fun h => ⟨_, exec_unpad_accepted hb h, rfl, rfl, rfl, rfl, rfl⟩⟩⟩

/-! ### From issue to completion (40_padder.md R132, R135) -/

theorem coreStep_pad {s : State} (hb : s.busy = true) (hop : s.fsm.op = .pad) (hp : s.fsm.phase = .run) :
    coreStep s = padStep s := by
  rw [coreStep_busy hb, busyStep_pad hop, inRun, if_pos hp]

theorem coreStep_unpad {s : State} (hb : s.busy = true) (hop : s.fsm.op = .unpad) (hp : s.fsm.phase = .run) :
    coreStep s = unpadStep s := by
  rw [coreStep_busy hb, busyStep_unpad hop, inRun, if_pos hp]

/-- The state in which the core step of a `PAD` accepted in `s` ends (40_padder.md R132). -/
def padded (s : State) : State :=
  complete .none { s with buf := padBuffer s.buf s.mlen.toNat, plen := BitVec.ofNat 8 (padLen s.mlen.toNat) }

theorem coreStep_pad_eq {s : State} (hb : s.busy = true) (hop : s.fsm.op = .pad) (hp : s.fsm.phase = .run)
    (h : s.mlen.toNat < 64) : coreStep s = .next (padded s) := by
  rw [coreStep_pad hb hop hp, padStep_eq h, add_padValue, padded]

/-- Settles O28: the issue starts the state machine, and its one core step stores the padding. -/
theorem padAppendsPadding : Obligations.PadAppendsPadding := by
  intro s hb h
  have hlt : s.mlen.toNat < 64 := by omega
  have hlen : s.mlen.toNat + (16 - s.mlen.toNat % 16) = padLen s.mlen.toNat := add_padValue _
  rw [hlen]
  exact ⟨_, _, exec_pad_accepted hb hlt, coreStep_pad_eq rfl rfl rfl hlt, readByte_padBuffer s.buf s.mlen.toNat,
    toNat_ofNat_padLen hlt, rfl, rfl⟩

/-- Settles O29: a refused `PAD` ends with code `0x02`; an accepted one leaves the pad value in the last byte. -/
theorem paddedBufferEndsInItsCount : Obligations.PaddedBufferEndsInItsCount := by
  intro s t u hb ht hu hcode
  by_cases h : s.mlen.toNat < 64
  case pos =>
    obtain rfl := Host.Outcome.next.inj ((exec_pad_accepted hb h).symm.trans ht)
    have hcore := coreStep_pad_eq (s := startRun .pad (beginIssue s)) rfl rfl rfl h
    obtain rfl := Host.Outcome.next.inj (hcore.symm.trans hu)
    have hplen : (padded (startRun .pad (beginIssue s))).plen.toNat = padLen s.mlen.toNat := toNat_ofNat_padLen h
    have hlast : readByte (padded (startRun .pad (beginIssue s))).buf (padLen s.mlen.toNat - 1) =
      BitVec.ofNat 8 (padValue s.mlen.toNat) := padByte_padBuffer s.buf s.mlen.toNat
    rw [hplen, hlast, toNat_ofNat_padValue]
    exact ⟨padValue_pos _, padValue_le _, (padLen_sub_self _).symm, padLen_pos _, padLen_mod _, padLen_le h⟩
  case neg =>
    obtain rfl := Host.Outcome.next.inj ((exec_pad_refused hb (Nat.not_lt.mp h)).symm.trans ht)
    have hcore := coreStep_idle (s := { s with done := true, errcode := 0x02 }) hb
    obtain rfl := Host.Outcome.next.inj (hcore.symm.trans hu)
    exact absurd hcode (by decide : (0x02 : Byte) ≠ 0x00)

/-- Settles O32: the issue starts the state machine, and its one core step goes by the check. -/
theorem unpadStripsOrReports : Obligations.UnpadStripsOrReports := by
  intro s hb h
  have hissue := exec_unpad_accepted hb h
  cases hok : padOK s.plen.toNat s.buf s.strict with
  | true =>
    have hmlen (p : Nat) : (BitVec.ofNat 8 (s.plen.toNat - p)).toNat = s.plen.toNat - p := by
      rw [BitVec.toNat_ofNat, Nat.mod_eq_of_lt (by omega)]
    have hcore := (coreStep_unpad (s := startRun .unpad (beginIssue s)) rfl rfl rfl).trans (unpadStep_of_padOK h hok)
    exact ⟨_, _, hissue, hcore, fun _ => ⟨hmlen _, rfl⟩, fun hf => absurd hf.symm Bool.false_ne_true, fun _ => rfl,
      rfl, rfl⟩
  | false =>
    have hcore :=
      (coreStep_unpad (s := startRun .unpad (beginIssue s)) rfl rfl rfl).trans (unpadStep_of_not_padOK h hok)
    exact ⟨_, _, hissue, hcore, fun ht => absurd ht Bool.false_ne_true, fun _ => ⟨rfl, rfl⟩, fun _ => rfl, rfl, rfl⟩

/-! ### One command in a run (log 1) -/

theorem runSteps_succ_of_runSteps {n : Nat} {s t : State} (h : runSteps n s = .next t) : runSteps (n + 1) s = step t := by
  rw [runSteps_add 1 h, runSteps_succ]
  cases step t <;> rfl

/-- `t` is the block at the core's turn of the command `op` issued in `s`; the events after the turn are `rest`. -/
structure CoreTurn (op : Op) (rest : List Event) (s t : State) : Prop where
  busy : t.busy = true
  op : t.fsm.op = op
  phase : t.fsm.phase = .run
  inputs : t.inputs = rest
  buf : t.buf = s.buf
  mlen : t.mlen = s.mlen
  plen : t.plen = s.plen

/-- The run from an issue that starts `op`, over host accesses while it is busy, up to and with the core's turn. -/
theorem runSteps_command {s : State} {i : Instr} {op : Op} {v : Byte} {es rest : List Event}
    (hd : decode v = .ok i)
    (hexec : ∀ es, exec i (takeEvent es s) = .next (startRun op (beginIssue (takeEvent es s))))
    (hes : es.all isHostEvent = true)
    (hi : s.inputs = .write 0x50 v :: (es ++ .core :: rest)) :
    ∃ t, CoreTurn op rest s t ∧ runSteps (es.length + 2) s = coreStep t := by
  have hissue := (step_command hi hd).trans (hexec (es ++ .core :: rest))
  generalize hu : startRun op (beginIssue (takeEvent (es ++ .core :: rest) s)) = u at hissue
  have hbu : u.busy = true := by rw [← hu, startRun_busy]
  have hiu : u.inputs = es ++ .core :: rest := by rw [← hu]; rfl
  obtain ⟨t, ht, hframe⟩ := runSteps_host_busy hbu hes hiu
  refine ⟨takeEvent rest t, ?turn, ?run⟩
  case turn =>
    rw [hframe, ← hu]
    exact ⟨rfl, rfl, rfl, rfl, by simp, by simp, by simp⟩
  case run => rw [runSteps_succ_of_next hissue, runSteps_succ_of_runSteps ht, step_core hframe.inputs]

/-- A `PAD` that is accepted, run to completion under any host accesses (40_padder.md R131, R132). -/
theorem runSteps_pad {s : State} {es rest : List Event} (hb : s.busy = false) (hm : s.mlen.toNat < 64)
    (hes : es.all isHostEvent = true) (hi : s.inputs = .write 0x50 0x01 :: (es ++ .core :: rest)) :
    ∃ t, runSteps (es.length + 2) s = .next t ∧ t.inputs = rest ∧ t.busy = false ∧
      t.buf = padBuffer s.buf s.mlen.toNat ∧ t.plen.toNat = padLen s.mlen.toNat := by
  have hexec (es : List Event) := exec_pad_accepted (s := takeEvent es s) hb hm
  obtain ⟨t, turn, hrun⟩ := runSteps_command (encodedCommandDecodesToItself .pad) hexec hes hi
  rw [coreStep_pad_eq turn.busy turn.op turn.phase (by rwa [turn.mlen])] at hrun
  refine ⟨_, hrun, turn.inputs, rfl, ?_, ?_⟩
  · rw [← turn.buf, ← turn.mlen]
    rfl
  · rw [← toNat_ofNat_padLen hm, ← turn.mlen]
    rfl

/-- `t` is `s` but for what an event that keeps the buffer can change while idle, and the events to come are `rest`. -/
def IdleKeepsFrame (rest : List Event) (s t : State) : Prop :=
  t = { s with
    inputs := rest, rdata := t.rdata, done := t.done, wbusy := t.wbusy, draws := t.draws, key := t.key,
    ctrl := t.ctrl, mlen := t.mlen }

theorem IdleKeepsFrame.busy {rest : List Event} {s t : State} (h : IdleKeepsFrame rest s t) : t.busy = s.busy := by
  rw [h]
  rfl

theorem IdleKeepsFrame.inputs {rest : List Event} {s t : State} (h : IdleKeepsFrame rest s t) : t.inputs = rest := by
  rw [h]

theorem IdleKeepsFrame.buf {rest : List Event} {s t : State} (h : IdleKeepsFrame rest s t) : t.buf = s.buf := by
  rw [h]

theorem IdleKeepsFrame.plen {rest : List Event} {s t : State} (h : IdleKeepsFrame rest s t) : t.plen = s.plen := by
  rw [h]

theorem IdleKeepsFrame.trans {rest rest' : List Event} {s t u : State} (h₁ : IdleKeepsFrame rest s t)
    (h₂ : IdleKeepsFrame rest' t u) : IdleKeepsFrame rest' s u :=
  Eq.trans h₂ (by rw [h₁])

/-- Events that keep the buffer leave an idle block idle, with the same `BUF` and `PLEN` (40_padder.md R136). -/
theorem runSteps_keepsBuffer_idle {es rest : List Event} {s : State} (hb : s.busy = false)
    (hes : es.all keepsBuffer = true) (hi : s.inputs = es ++ rest) :
    ∃ t, runSteps es.length s = .next t ∧ IdleKeepsFrame rest s t := by
  induction es generalizing s with
  | nil =>
    obtain rfl : s.inputs = rest := hi
    exact ⟨s, rfl, rfl⟩
  | cons e es ih =>
    rw [List.all_cons, Bool.and_eq_true] at hes
    obtain ⟨t, ht, hst⟩ := step_keepsBuffer_idle hb hes.1 hi
    have hst : IdleKeepsFrame (es ++ rest) s t := hst
    obtain ⟨u, hu, htu⟩ := ih (hst.busy.trans hb) hes.2 hst.inputs
    exact ⟨u, (runSteps_succ_of_next ht).trans hu, hst.trans htu⟩

/-- An `UNPAD` of a buffer that passes both checks, run to completion under any host accesses (40_padder.md R133, R135). -/
theorem runSteps_unpad {s : State} {es rest : List Event} (hb : s.busy = false) (hl : s.plen.toNat ≤ 64)
    (hok : ∀ strict, padOK s.plen.toNat s.buf strict = true) (hes : es.all isHostEvent = true)
    (hi : s.inputs = .write 0x50 0x02 :: (es ++ .core :: rest)) :
    ∃ t, runSteps (es.length + 2) s = .next t ∧ t.inputs = rest ∧ t.busy = false ∧ t.errcode = 0x00 ∧ t.buf = s.buf ∧
      t.mlen = BitVec.ofNat 8 (s.plen.toNat - (padByte s.plen.toNat s.buf).toNat) := by
  have hexec (es : List Event) := exec_unpad_accepted (s := takeEvent es s) hb hl
  obtain ⟨t, turn, hrun⟩ := runSteps_command (encodedCommandDecodesToItself .unpad) hexec hes hi
  have hokt : padOK t.plen.toNat t.buf t.strict = true := by rw [turn.plen, turn.buf]; exact hok _
  rw [coreStep_unpad turn.busy turn.op turn.phase, unpadStep_of_padOK (by rwa [turn.plen]) hokt] at hrun
  refine ⟨_, hrun, turn.inputs, rfl, rfl, turn.buf, ?_⟩
  rw [← turn.plen, ← turn.buf]
  rfl

/-- Settles O34: the run is `PAD`, then events that keep `BUF` and `PLEN`, then `UNPAD` of what `PAD` wrote, which passes the
check whatever `STRICT` has become. -/
theorem padThenUnpadRecoversLength : Obligations.PadThenUnpadRecoversLength := by
  intro s es₁ es₂ es₃ rest hb hm h₁ h₂ h₃ hi
  have hm : s.mlen.toNat < 64 := by omega
  obtain ⟨a, hrunA, hinA, hbA, hbufA, hplenA⟩ := runSteps_pad hb hm h₁ hi
  obtain ⟨b, hrunB, hframeB⟩ := runSteps_keepsBuffer_idle hbA h₂ hinA
  have hbufB : b.buf = padBuffer s.buf s.mlen.toNat := hframeB.buf.trans hbufA
  have hplenB : b.plen.toNat = padLen s.mlen.toNat := hframeB.plen ▸ hplenA
  have hokB (strict : Bool) : padOK b.plen.toNat b.buf strict = true := by
    rw [hplenB, hbufB]
    exact padOK_padBuffer s.buf s.mlen.toNat strict
  obtain ⟨u, hrunU, hinU, hbU, hcodeU, hbufU, hmlenU⟩ :=
    runSteps_unpad (hframeB.busy.trans hbA) (hplenB ▸ padLen_le hm) hokB h₃ hframeB.inputs
  refine ⟨u, ?run, hinU, hbU, ?mlen, hcodeU, fun x hx => ?message⟩
  case run =>
    have hcount : es₁.length + es₂.length + es₃.length + 4 = (es₁.length + 2) + (es₂.length + (es₃.length + 2)) := by
      omega
    rw [hcount, runSteps_add _ hrunA, runSteps_add _ hrunB, hrunU]
  case mlen =>
    rw [hmlenU, hplenB, hbufB, padByte_padBuffer, toNat_ofNat_padValue, padLen_sub_padValue, BitVec.ofNat_toNat]
    exact BitVec.setWidth_eq _
  case message => rw [hbufU, hbufB, readByte_padBuffer_message _ hx]

end Sys2Proof.Machine
end

section
/-! SUPPORT. The AES-128 core's statements, the arithmetic: the field GF(2^8) and its inverse, the two S-boxes, and the
inverse transformations. -/

namespace Sys2Proof.Machine

/-! ### Exclusive-or on bytes -/

/-- The exclusive-or of the powers of two that a byte has set. -/
theorem byte_eq_xor_twoPow (a : Byte) :
    a = (List.finRange 8).foldr (fun (i : Fin 8) x => (if a.getLsbD i then BitVec.twoPow 8 i else 0#8) ^^^ x) 0#8 := by
  revert a
  decide +kernel

/-- Induction on the additive structure of the bytes: what holds of the eight powers of two and passes to exclusive-ors
holds of every byte. -/
theorem xor_induction {P : Byte → Prop} (hbit : ∀ i : Fin 8, P (BitVec.twoPow 8 i))
    (hxor : ∀ a b, P a → P b → P (a ^^^ b)) (a : Byte) : P a := by
  have hzero : P 0#8 := BitVec.xor_self (x := BitVec.twoPow 8 0) ▸ hxor _ _ (hbit 0) (hbit 0)
  rw [byte_eq_xor_twoPow a]
  refine List.foldrRecOn _ _ hzero fun x hx i _ => hxor _ _ ?_ hx
  split
  · exact hbit i
  · exact hzero

/-! ### The field product (41_aes128_core.md R161) -/

theorem gfMul_two_left (a : Byte) : gfMul 0x02#8 a = xtime a := by
  revert a
  decide +kernel

theorem xtime_xor (a b : Byte) : xtime (a ^^^ b) = xtime a ^^^ xtime b := by
  simp only [← gfMul_two_left, gfMul_xor]

/-- The field product is additive in its first argument too. -/
theorem xor_gfMulBits (n : Nat) (a b c : Byte) : gfMulBits n (a ^^^ b) c = gfMulBits n a c ^^^ gfMulBits n b c := by
  induction n generalizing a b c with
  | zero => simp [gfMulBits]
  | succ n ih =>
    have hbit : (if c.getLsbD 0 then a ^^^ b else 0x00) =
        (if c.getLsbD 0 then a else 0x00) ^^^ (if c.getLsbD 0 then b else 0x00) := by
      split <;> simp
    simp only [gfMulBits, xtime_xor, ih, hbit]
    ac_rfl

theorem xor_gfMul (a b c : Byte) : gfMul (a ^^^ b) c = gfMul a c ^^^ gfMul b c := xor_gfMulBits 8 a b c

/-- Both sides are additive in both arguments, so the powers of two decide. -/
theorem gfMul_comm (a b : Byte) : gfMul a b = gfMul b a := by
  induction a using xor_induction with
  | hxor a a' iha iha' => rw [xor_gfMul, gfMul_xor, iha, iha']
  | hbit i =>
    induction b using xor_induction with
    | hxor b b' ihb ihb' => rw [xor_gfMul, gfMul_xor, ihb, ihb']
    | hbit j =>
      revert i j
      decide +kernel

/-- Both sides are additive in all three arguments, so the powers of two decide. -/
theorem gfMul_assoc (a b c : Byte) : gfMul (gfMul a b) c = gfMul a (gfMul b c) := by
  induction a using xor_induction with
  | hxor a a' iha iha' => simp only [xor_gfMul, iha, iha']
  | hbit i =>
    induction b using xor_induction with
    | hxor b b' ihb ihb' => simp only [xor_gfMul, gfMul_xor, ihb, ihb']
    | hbit j =>
      induction c using xor_induction with
      | hxor c c' ihc ihc' => simp only [gfMul_xor, ihc, ihc']
      | hbit k =>
        revert i j k
        decide +kernel

theorem gfMul_one_right (a : Byte) : gfMul a 0x01#8 = a := (gfMul_comm a 0x01#8).trans (gfMul_one a)

theorem gfMul_two_right (a : Byte) : gfMul a 0x02#8 = xtime a := (gfMul_comm a 0x02#8).trans (gfMul_two_left a)

@[simp] theorem gfMul_zero_left (a : Byte) : gfMul 0#8 a = 0#8 := by
  have h := xor_gfMul 0#8 0#8 a
  rwa [BitVec.xor_self, BitVec.xor_self] at h

theorem gfMul_three_left (a : Byte) : gfMul 0x03#8 a = xtime a ^^^ a := by
  rw [(by decide : 0x03#8 = 0x02#8 ^^^ 0x01#8), xor_gfMul, gfMul_two_left, gfMul_one]

/-! ### Powers and the inverse (41_aes128_core.md R161, log 16)

Squaring is additive, and eight squarings bring every power of two back to itself. So `a^256 = a` for every byte, and the
power `a^254` is the one inverse that a byte can have. -/

theorem gfPow_zero (a : Byte) : gfPow a 0 = 0x01#8 := rfl

theorem gfPow_succ (a : Byte) (n : Nat) : gfPow a (n + 1) = gfMul a (gfPow a n) := rfl

theorem gfPow_add (a : Byte) (m n : Nat) : gfPow a (m + n) = gfMul (gfPow a m) (gfPow a n) := by
  induction m with
  | zero => rw [Nat.zero_add, gfPow_zero, gfMul_one]
  | succ m ih => rw [Nat.succ_add, gfPow_succ, ih, gfPow_succ, gfMul_assoc]

/-- `a²` in the field. -/
def gfSquare (a : Byte) : Byte := gfMul a a

theorem gfSquare_xor (a b : Byte) : gfSquare (a ^^^ b) = gfSquare a ^^^ gfSquare b := by
  calc gfSquare (a ^^^ b)
      = (gfMul a a ^^^ gfMul a b) ^^^ (gfMul a b ^^^ gfMul b b) := by
        rw [gfSquare, xor_gfMul, gfMul_xor, gfMul_xor, gfMul_comm b a]
    _ = (gfMul a b ^^^ gfMul a b) ^^^ (gfSquare a ^^^ gfSquare b) := by
        rw [gfSquare, gfSquare]
        ac_rfl
    _ = gfSquare a ^^^ gfSquare b := by rw [BitVec.xor_self, BitVec.zero_xor]

theorem iterate_gfSquare_xor (k : Nat) (a b : Byte) : gfSquare^[k] (a ^^^ b) = gfSquare^[k] a ^^^ gfSquare^[k] b := by
  induction k generalizing a b with
  | zero => rfl
  | succ k ih => simp only [Function.iterate_succ_apply, gfSquare_xor, ih]

theorem gfPow_two_pow (a : Byte) (k : Nat) : gfPow a (2 ^ k) = gfSquare^[k] a := by
  induction k with
  | zero => exact gfMul_one_right a
  | succ k ih => rw [Nat.pow_succ, Nat.mul_two, gfPow_add, ih, Function.iterate_succ_apply', gfSquare]

theorem gfPow_256 (a : Byte) : gfPow a 256 = a := by
  refine (gfPow_two_pow a 8).trans ?_
  induction a using xor_induction with
  | hxor a b iha ihb => rw [iterate_gfSquare_xor, iha, ihb]
  | hbit i =>
    revert i
    decide +kernel

/-- A byte that has an inverse has `a^254` as its inverse. -/
theorem gfMul_gfInv_of_gfMul_eq_one {a b : Byte} (h : gfMul a b = 0x01#8) : gfMul a (gfInv a) = 0x01#8 := by
  calc gfMul a (gfInv a)
      = gfMul (gfPow a 255) (gfMul a b) := by rw [h, gfMul_one_right]; rfl
    _ = gfMul (gfPow a 256) b := by rw [← gfMul_assoc, gfMul_comm _ a]; rfl
    _ = 0x01#8 := by rw [gfPow_256, h]

theorem gfInv_eq_of_gfMul_eq_one {a b : Byte} (h : gfMul a b = 0x01#8) : gfInv a = b := by
  calc gfInv a
      = gfMul (gfMul (gfInv a) a) b := by rw [gfMul_assoc, h, gfMul_one_right]
    _ = b := by rw [gfMul_comm _ a, gfMul_gfInv_of_gfMul_eq_one h, gfMul_one]

theorem gfInv_zero : gfInv 0#8 = 0#8 := gfMul_zero_left (gfPow 0#8 253)

/-! ### The S-boxes (41_aes128_core.md R162, R168) -/

/-- The affine map of R162. -/
def sboxAffine (b : Byte) : Byte :=
  b ^^^ b.rotateLeft 1 ^^^ b.rotateLeft 2 ^^^ b.rotateLeft 3 ^^^ b.rotateLeft 4 ^^^ 0x63

/-- The map that `sboxAffine` undoes. -/
def sboxAffineInv (s : Byte) : Byte := s.rotateLeft 1 ^^^ s.rotateLeft 3 ^^^ s.rotateLeft 6 ^^^ 0x05

theorem sboxAffine_sboxAffineInv (s : Byte) : sboxAffine (sboxAffineInv s) = s := by
  revert s
  decide +kernel

/-- The table of R162 holds, under the affine map, an inverse of every nonzero byte. -/
theorem gfMul_sboxAffineInv_sbox (a : Byte) : a ≠ 0x00#8 → gfMul a (sboxAffineInv (sbox a)) = 0x01#8 := by
  revert a
  decide +kernel

theorem gfInv_eq_sboxAffineInv_sbox (a : Byte) : gfInv a = sboxAffineInv (sbox a) := by
  by_cases ha : a = 0x00#8
  · rw [ha, gfInv_zero]
    decide
  · exact gfInv_eq_of_gfMul_eq_one (gfMul_sboxAffineInv_sbox a ha)

/-- Settles O35: the product by its additivity, the inverse by `a^256 = a`. -/
theorem fieldArithmetic : Obligations.FieldArithmetic :=
  ⟨gfMul_comm, gfMul_xor, gfMul_one_right, gfMul_two_right,
    fun a ha => gfMul_gfInv_of_gfMul_eq_one (gfMul_sboxAffineInv_sbox a ha), gfInv_zero, by decide, by decide, by decide⟩

/-- Settles O36: undoing the affine map in the table leaves the field inverse. -/
theorem sboxTableIsTheFormula : Obligations.SboxTableIsTheFormula := by
  refine ⟨by decide, fun a => ?_⟩
  calc sbox a
      = sboxAffine (sboxAffineInv (sbox a)) := (sboxAffine_sboxAffineInv _).symm
    _ = sboxAffine (gfInv a) := by rw [gfInv_eq_sboxAffineInv_sbox]

@[simp] theorem invSbox_sbox (a : Byte) : invSbox (sbox a) = a := by
  revert a
  decide +kernel

@[simp] theorem sbox_invSbox (a : Byte) : sbox (invSbox a) = a := by
  revert a
  decide +kernel

/-- Settles O37, by the two tables. -/
theorem invSboxInvertsSbox : Obligations.InvSboxInvertsSbox := ⟨invSbox_sbox, sbox_invSbox, by decide⟩

/-! ### The inverse transformations (41_aes128_core.md R164 to R171) -/

@[simp] theorem invSubBytes_subBytes (s : Block) : invSubBytes (subBytes s) = s := cell_ext fun r c => by simp

@[simp] theorem subBytes_invSubBytes (s : Block) : subBytes (invSubBytes s) = s := cell_ext fun r c => by simp

@[simp] theorem invShiftRows_shiftRows (s : Block) : invShiftRows (shiftRows s) = s := cell_ext fun r c => by simp

@[simp] theorem shiftRows_invShiftRows (s : Block) : shiftRows (invShiftRows s) = s := cell_ext fun r c => by simp

@[simp] theorem addRoundKey_addRoundKey (s k : Block) : addRoundKey (addRoundKey s k) k = s := xorBlock_cancel_right s k

/-- Settles O38: sums and differences in `Fin 4` are those modulo 4. -/
theorem invShiftRowsInverts : Obligations.InvShiftRowsInverts := by
  intro s r c
  refine ⟨cell_shiftRows s r c, ?_, invShiftRows_shiftRows s⟩
  have hsub : c - r = ⟨(c.val + 4 - r.val) % 4, Nat.mod_lt _ (by decide)⟩ := by
    refine Fin.ext ((Fin.val_sub c r).trans ?_)
    congr 1
    omega
  rw [cell_invShiftRows, hsub]

/-! ### The column mixes as matrices (41_aes128_core.md R166, R171) -/

/-- The transformation that multiplies every column of the state by the matrix `m`. -/
def mixBy (m : Fin 4 → Fin 4 → Byte) (s : Block) : Block :=
  ofCells fun r c => mixRow (m r 0) (m r 1) (m r 2) (m r 3) s c

/-- The product of two matrices over the field. -/
def mixMul (m n : Fin 4 → Fin 4 → Byte) (r c : Fin 4) : Byte :=
  gfMul (m r 0) (n 0 c) ^^^ gfMul (m r 1) (n 1 c) ^^^ gfMul (m r 2) (n 2 c) ^^^ gfMul (m r 3) (n 3 c)

/-- The identity matrix. -/
def mixOne (r c : Fin 4) : Byte := if r = c then 0x01 else 0x00

/-- The matrix of R166. -/
def mixMatrix : Fin 4 → Fin 4 → Byte :=
  ![![0x02, 0x03, 0x01, 0x01], ![0x01, 0x02, 0x03, 0x01], ![0x01, 0x01, 0x02, 0x03], ![0x03, 0x01, 0x01, 0x02]]

/-- The matrix of R171. -/
def invMixMatrix : Fin 4 → Fin 4 → Byte :=
  ![![0x0E, 0x0B, 0x0D, 0x09], ![0x09, 0x0E, 0x0B, 0x0D], ![0x0D, 0x09, 0x0E, 0x0B], ![0x0B, 0x0D, 0x09, 0x0E]]

@[simp] theorem cell_mixBy (m : Fin 4 → Fin 4 → Byte) (s : Block) (r c : Fin 4) :
    cell (mixBy m s) r c =
      gfMul (m r 0) (cell s 0 c) ^^^ gfMul (m r 1) (cell s 1 c) ^^^ gfMul (m r 2) (cell s 2 c) ^^^
        gfMul (m r 3) (cell s 3 c) :=
  cell_ofCells _ r c

theorem mixColumns_eq_mixBy (s : Block) : mixColumns s = mixBy mixMatrix s := rfl

theorem invMixColumns_eq_mixBy (s : Block) : invMixColumns s = mixBy invMixMatrix s := rfl

theorem mixBy_mixBy (m n : Fin 4 → Fin 4 → Byte) (s : Block) : mixBy m (mixBy n s) = mixBy (mixMul m n) s :=
  cell_ext fun r c => by
    simp only [cell_mixBy, mixMul, gfMul_xor, xor_gfMul, gfMul_assoc]
    ac_rfl

theorem mixBy_mixOne (s : Block) : mixBy mixOne s = s :=
  cell_ext fun r c => by fin_cases r <;> simp [mixOne]

theorem mixMul_invMixMatrix_mixMatrix : mixMul invMixMatrix mixMatrix = mixOne := by
  funext r c
  revert r c
  decide +kernel

theorem mixMul_mixMatrix_invMixMatrix : mixMul mixMatrix invMixMatrix = mixOne := by
  funext r c
  revert r c
  decide +kernel

@[simp] theorem invMixColumns_mixColumns (s : Block) : invMixColumns (mixColumns s) = s := by
  rw [mixColumns_eq_mixBy, invMixColumns_eq_mixBy, mixBy_mixBy, mixMul_invMixMatrix_mixMatrix, mixBy_mixOne]

@[simp] theorem mixColumns_invMixColumns (s : Block) : mixColumns (invMixColumns s) = s := by
  rw [mixColumns_eq_mixBy, invMixColumns_eq_mixBy, mixBy_mixBy, mixMul_mixMatrix_invMixMatrix, mixBy_mixOne]

/-- Settles O39: the two matrices are inverse to each other. -/
theorem invMixColumnsInverts : Obligations.InvMixColumnsInverts := by
  refine ⟨gfMul_three_left, ?vectors, fun s c => ⟨?columns, invMixColumns_mixColumns s⟩⟩
  case vectors =>
    intro plain mixed
    have hmix : mixColumns plain = mixed := by decide +kernel
    exact ⟨hmix, hmix ▸ invMixColumns_mixColumns plain⟩
  case columns => simp [mixColumns_eq_mixBy, invMixColumns_eq_mixBy, mixMatrix, invMixMatrix]

end Sys2Proof.Machine
end

section
/-! SUPPORT. The AES-128 core's statements, the ciphers: the key schedule, the rounds, and that the inverse cipher undoes the
cipher. -/

namespace Sys2Proof.Machine

/-! ### The key schedule (41_aes128_core.md R173, R174) -/

@[simp] theorem length_expandFrom (n i : Nat) (w4 w3 w2 w1 : KeyWord) : (expandFrom n i w4 w3 w2 w1).length = n := by
  induction n generalizing i w4 w3 w2 w1 with
  | zero => rfl
  | succ n ih => simp [expandFrom, ih]

theorem length_keyWords (key : Block) : (keyWords key).length = 44 := by simp [keyWords]

/-- Word `k + 4` of the list `ws`, the loop's index of which is `i`, comes from the words `k` and `k + 3` (R173). -/
def KeyWordStep (ws : List KeyWord) (i k : Nat) : Prop :=
  ∃ w w4 w1 : KeyWord, ws[k + 4]? = some w ∧ ws[k]? = some w4 ∧ ws[k + 3]? = some w1 ∧ w = xorWord w4 (keyTemp i w1)

theorem expandFrom_step {n k : Nat} (i : Nat) (w4 w3 w2 w1 : KeyWord) (h : k < n) :
    KeyWordStep (w4 :: w3 :: w2 :: w1 :: expandFrom n i w4 w3 w2 w1) (i + k) k := by
  induction n generalizing i k w4 w3 w2 w1 with
  | zero => exact absurd h (Nat.not_lt_zero k)
  | succ n ih =>
    cases k with
    | zero => exact ⟨_, w4, w1, rfl, rfl, rfl, rfl⟩
    | succ k =>
      rw [(by omega : i + (k + 1) = i + 1 + k)]
      exact ih (i + 1) w3 w2 w1 (xorWord w4 (keyTemp i w1)) (Nat.lt_of_succ_lt_succ h)

theorem keyWords_step (key : Block) {i : Nat} (h4 : 4 ≤ i) (h44 : i < 44) : KeyWordStep (keyWords key) i (i - 4) := by
  have h := expandFrom_step 4 (keyWord key 0) (keyWord key 1) (keyWord key 2) (keyWord key 3)
    (by omega : i - 4 < 40)
  rwa [Nat.add_sub_cancel' h4] at h

theorem keyWords_first (key : Block) (i : Fin 4) : (keyWords key)[i.val]? = some (keyWord key i) := by
  fin_cases i <;> rfl

theorem keyExpansion_getElem (key : Block) (i : Fin 11) : (keyExpansion key)[i] = roundKeyOf (keyWords key) i := by
  unfold keyExpansion
  fin_cases i <;> rfl

theorem cell_roundKeyOf {ws : List KeyWord} {i : Nat} {r c : Fin 4} {w : KeyWord} (h : ws[4 * i + c.val]? = some w) :
    cell (roundKeyOf ws i) r c = w[r] := by
  rw [roundKeyOf, cell_ofCells, List.getD_eq_getElem?_getD, h, Option.getD_some]

theorem roundKeyOf_zero (key : Block) : roundKeyOf (keyWords key) 0 = key :=
  cell_ext fun r c => by
    rw [cell_roundKeyOf ((congrArg _ (Nat.zero_add c.val)).trans (keyWords_first key c))]
    fin_cases r <;> rfl

/-- Settles O40, by the recurrence of the loop. -/
theorem keyScheduleRecurrence : Obligations.KeyScheduleRecurrence := by
  refine ⟨fun a b => ⟨rfl, rfl, fun k => by fin_cases k <;> rfl⟩, by decide, fun key =>
    ⟨length_keyWords key, fun i => ?first, fun i h4 h44 => ?loop, fun i r c => ?roundKeys, ?key⟩⟩
  case first =>
    rw [keyWords_first]
    fin_cases i <;> rfl
  case loop =>
    obtain ⟨w, w4, w1, hw, hw4, hw1, heq⟩ := keyWords_step key h4 h44
    rw [(by omega : i - 4 + 4 = i)] at hw
    rw [(by omega : i - 4 + 3 = i - 1)] at hw1
    exact ⟨w, w4, w1, hw, hw4, hw1, heq⟩
  case roundKeys =>
    have hlt : 4 * i.val + c.val < (keyWords key).length := by
      rw [length_keyWords]
      omega
    have hw := List.getElem?_eq_getElem hlt
    exact ⟨_, hw, by rw [keyExpansion_getElem, cell_roundKeyOf hw]⟩
  case key => exact (keyExpansion_getElem key 0).trans (roundKeyOf_zero key)

/-! ### The states the ciphers pass through (41_aes128_core.md R176, R177) -/

/-- The cipher's state after round `n` (R176). -/
def cipherState (rk : RoundKeys) (x : Block) : Nat → Block
  | 0 => addRoundKey x rk[0]
  | n + 1 => aesRound (cipherState rk x n) rk[Fin.ofNat 11 (n + 1)]

/-- The inverse cipher's state after `n` of its inner rounds, which use the round keys from `RK[9]` down (R177). -/
def invCipherState (rk : RoundKeys) (x : Block) : Nat → Block
  | 0 => addRoundKey x rk[10]
  | n + 1 => aesInvRound (invCipherState rk x n) rk[Fin.ofNat 11 (9 - n)]

theorem aesEncrypt_eq_cipherState (rk : RoundKeys) (x : Block) :
    aesEncrypt rk x = aesFinalRound (cipherState rk x 9) rk[10] := by
  unfold aesEncrypt
  rfl

theorem aesDecrypt_eq_invCipherState (rk : RoundKeys) (x : Block) :
    aesDecrypt rk x = aesInvFinalRound (invCipherState rk x 9) rk[0] := by
  unfold aesDecrypt
  rfl

theorem cipherState_round (rk : RoundKeys) (x : Block) {r : Fin 11} (h : 1 ≤ r.val) :
    cipherState rk x r.val = aesRound (cipherState rk x (r.val - 1)) rk[r] := by
  have hr : r.val = r.val - 1 + 1 := by omega
  have hkey : Fin.ofNat 11 (r.val - 1 + 1) = r := by rw [← hr, Fin.ofNat_val_eq_self]
  calc cipherState rk x r.val
      = aesRound (cipherState rk x (r.val - 1)) rk[Fin.ofNat 11 (r.val - 1 + 1)] := congrArg (cipherState rk x) hr
    _ = aesRound (cipherState rk x (r.val - 1)) rk[r] := congrArg (fun q : Fin 11 => aesRound _ rk[q]) hkey

theorem invCipherState_round (rk : RoundKeys) (x : Block) {r : Fin 11} (h : r.val ≤ 9) :
    invCipherState rk x (10 - r.val) = aesInvRound (invCipherState rk x (10 - (r.val + 1))) rk[r] := by
  have hr : 10 - r.val = 9 - r.val + 1 := by omega
  have hkey : Fin.ofNat 11 (9 - (9 - r.val)) = r := by rw [Nat.sub_sub_self h, Fin.ofNat_val_eq_self]
  calc invCipherState rk x (10 - r.val)
      = aesInvRound (invCipherState rk x (9 - r.val)) rk[Fin.ofNat 11 (9 - (9 - r.val))] :=
        congrArg (invCipherState rk x) hr
    _ = aesInvRound (invCipherState rk x (9 - r.val)) rk[r] := congrArg (fun q : Fin 11 => aesInvRound _ rk[q]) hkey
    _ = aesInvRound (invCipherState rk x (10 - (r.val + 1))) rk[r] := by rw [Nat.add_sub_add_right 9 1 r.val]

/-- Settles O41: the states are those of the two loops. -/
theorem cipherRounds : Obligations.CipherRounds := by
  refine ⟨fun s k r c => ⟨cell_subBytes s r c, cell_invSubBytes s r c, cell_addRoundKey s k r c⟩,
    fun s k => ⟨rfl, rfl, rfl, rfl⟩, fun rk x => ⟨?cipher, ?invCipher⟩⟩
  case cipher =>
    exact ⟨cipherState rk x, rfl, fun r h1 _ => cipherState_round rk x h1, aesEncrypt_eq_cipherState rk x⟩
  case invCipher =>
    refine ⟨fun r => invCipherState rk x (10 - r), rfl, fun r _ h9 => invCipherState_round rk x h9, ?_⟩
    rw [aesDecrypt_eq_invCipherState]

/-! ### The inverse law (41_aes128_core.md R178)

A round of the cipher ends with the mix and the round key, one of the inverse cipher begins with the substitution and the shift.
So the two ciphers pass through the same states at the point between the shift and the mix. -/

/-- The half of a round before the mix: `ShiftRows(SubBytes(s))`. -/
def shiftSub (s : Block) : Block := shiftRows (subBytes s)

/-- The half of an inverse round before the round key: `InvSubBytes(InvShiftRows(s))`. -/
def invShiftSub (s : Block) : Block := invSubBytes (invShiftRows s)

@[simp] theorem invShiftSub_shiftSub (s : Block) : invShiftSub (shiftSub s) = s := by simp [invShiftSub, shiftSub]

@[simp] theorem shiftSub_invShiftSub (s : Block) : shiftSub (invShiftSub s) = s := by simp [invShiftSub, shiftSub]

theorem aesRound_eq (s k : Block) : aesRound s k = addRoundKey (mixColumns (shiftSub s)) k := rfl

theorem aesFinalRound_eq (s k : Block) : aesFinalRound s k = addRoundKey (shiftSub s) k := rfl

theorem aesInvRound_eq (s k : Block) : aesInvRound s k = invMixColumns (addRoundKey (invShiftSub s) k) := rfl

theorem aesInvFinalRound_eq (s k : Block) : aesInvFinalRound s k = addRoundKey (invShiftSub s) k := rfl

theorem aesInvRound_shiftSub_aesRound (s k : Block) : aesInvRound (shiftSub (aesRound s k)) k = shiftSub s := by
  simp [aesRound_eq, aesInvRound_eq]

theorem aesRound_invShiftSub_aesInvRound (s k : Block) : aesRound (invShiftSub (aesInvRound s k)) k = invShiftSub s := by
  simp [aesRound_eq, aesInvRound_eq]

/-- Rounds under the round keys of `rs` in turn. -/
def rounds (rk : RoundKeys) (rs : List (Fin 11)) (s : Block) : Block := rs.foldl (fun s r => aesRound s rk[r]) s

/-- Inverse rounds under the round keys of `rs` in turn. -/
def invRounds (rk : RoundKeys) (rs : List (Fin 11)) (s : Block) : Block := rs.foldl (fun s r => aesInvRound s rk[r]) s

theorem rounds_cons (rk : RoundKeys) (r : Fin 11) (rs : List (Fin 11)) (s : Block) :
    rounds rk (r :: rs) s = rounds rk rs (aesRound s rk[r]) := rfl

theorem invRounds_reverse_cons (rk : RoundKeys) (r : Fin 11) (rs : List (Fin 11)) (s : Block) :
    invRounds rk (r :: rs).reverse s = aesInvRound (invRounds rk rs.reverse s) rk[r] := by
  simp [invRounds]

theorem invRounds_rounds (rk : RoundKeys) (rs : List (Fin 11)) (s : Block) :
    invRounds rk rs.reverse (shiftSub (rounds rk rs s)) = shiftSub s := by
  induction rs generalizing s with
  | nil => rfl
  | cons r rs ih => rw [rounds_cons, invRounds_reverse_cons, ih, aesInvRound_shiftSub_aesRound]

theorem rounds_invRounds (rk : RoundKeys) (rs : List (Fin 11)) (s : Block) :
    rounds rk rs (invShiftSub (invRounds rk rs.reverse s)) = invShiftSub s := by
  induction rs with
  | nil => rfl
  | cons r rs ih => rw [rounds_cons, invRounds_reverse_cons, aesRound_invShiftSub_aesInvRound, ih]

theorem aesEncrypt_eq (rk : RoundKeys) (x : Block) :
    aesEncrypt rk x =
      addRoundKey (shiftSub (rounds rk [1, 2, 3, 4, 5, 6, 7, 8, 9] (addRoundKey x rk[0]))) rk[10] := by
  unfold aesEncrypt
  rfl

theorem aesDecrypt_eq (rk : RoundKeys) (x : Block) :
    aesDecrypt rk x =
      addRoundKey (invShiftSub (invRounds rk [1, 2, 3, 4, 5, 6, 7, 8, 9].reverse (addRoundKey x rk[10]))) rk[0] := by
  unfold aesDecrypt
  rfl

/-- The inverse cipher undoes the cipher under any round keys, those of a key schedule or not. -/
theorem aesDecrypt_aesEncrypt (rk : RoundKeys) (x : Block) : aesDecrypt rk (aesEncrypt rk x) = x := by
  rw [aesEncrypt_eq, aesDecrypt_eq, addRoundKey_addRoundKey, invRounds_rounds, invShiftSub_shiftSub,
    addRoundKey_addRoundKey]

theorem aesEncrypt_aesDecrypt (rk : RoundKeys) (x : Block) : aesEncrypt rk (aesDecrypt rk x) = x := by
  rw [aesEncrypt_eq, aesDecrypt_eq, addRoundKey_addRoundKey, rounds_invRounds, shiftSub_invShiftSub,
    addRoundKey_addRoundKey]

/-- Settles O42, by the inverse laws under any round keys. -/
theorem aesDecryptInvertsEncrypt : Obligations.AesDecryptInvertsEncrypt := by
  intro key
  have hleft := aesDecrypt_aesEncrypt (keyExpansion key)
  have hright := aesEncrypt_aesDecrypt (keyExpansion key)
  exact ⟨hleft, hright, Function.bijective_iff_has_inverse.mpr ⟨_, hleft, hright⟩⟩

/-- Settles O43: the cipher is evaluated, and the inverse cipher undoes it. -/
theorem fipsExampleVector : Obligations.FipsExampleVector := by
  unfold Obligations.FipsExampleVector
  intro key plain cipher
  have hencrypt : aesEncrypt (keyExpansion key) plain = cipher := by decide +kernel
  exact ⟨hencrypt, hencrypt ▸ aesDecrypt_aesEncrypt (keyExpansion key) plain⟩

end Sys2Proof.Machine
end

section
/-! SUPPORT. The CBC statements, the functions: both directions block by block, the inverse law, and how far a changed
ciphertext block reaches. -/

namespace Sys2Proof.Machine

/-! ### One direction of CBC (42_cbc_engine.md R200, R201, R203, R205) -/

/-- The two directions of CBC: that of `ENC` and that of `DEC`. -/
inductive CbcMode where
  | encrypt
  | decrypt

/-- The block that takes the place of the block `x` after the chaining value `prev`. -/
def CbcMode.out (m : CbcMode) (rk : RoundKeys) (prev x : Block) : Block :=
  match m with
  | .encrypt => aesEncrypt rk (xorBlock x prev)
  | .decrypt => xorBlock (aesDecrypt rk x) prev

/-- The chaining value after the block `x`: its ciphertext block. -/
def CbcMode.chain (m : CbcMode) (rk : RoundKeys) (prev x : Block) : Block :=
  match m with
  | .encrypt => aesEncrypt rk (xorBlock x prev)
  | .decrypt => x

/-- What CBC makes of the blocks `xs` after the chaining value `prev`. -/
def CbcMode.blocks (m : CbcMode) (rk : RoundKeys) (prev : Block) (xs : List Block) : List Block :=
  match m with
  | .encrypt => cbcEncryptFrom rk prev xs
  | .decrypt => cbcDecryptFrom rk prev xs

/-- The ciphertext blocks: what `ENC` makes, and what `DEC` is given. -/
def CbcMode.ciphertext (m : CbcMode) (rk : RoundKeys) (prev : Block) (xs : List Block) : List Block :=
  match m with
  | .encrypt => cbcEncryptFrom rk prev xs
  | .decrypt => xs

/-- The chaining value after the blocks `xs`. -/
def CbcMode.chainAfter (m : CbcMode) (rk : RoundKeys) (prev : Block) (xs : List Block) : Block :=
  xs.foldl (m.chain rk) prev

theorem CbcMode.blocks_nil (m : CbcMode) (rk : RoundKeys) (prev : Block) : m.blocks rk prev [] = [] := by
  cases m <;> rfl

theorem CbcMode.blocks_cons (m : CbcMode) (rk : RoundKeys) (prev x : Block) (xs : List Block) :
    m.blocks rk prev (x :: xs) = m.out rk prev x :: m.blocks rk (m.chain rk prev x) xs := by
  cases m <;> rfl

theorem CbcMode.ciphertext_cons (m : CbcMode) (rk : RoundKeys) (prev x : Block) (xs : List Block) :
    m.ciphertext rk prev (x :: xs) = m.chain rk prev x :: m.ciphertext rk (m.chain rk prev x) xs := by
  cases m <;> rfl

theorem CbcMode.blocks_append (m : CbcMode) (rk : RoundKeys) (prev : Block) (xs ys : List Block) :
    m.blocks rk prev (xs ++ ys) = m.blocks rk prev xs ++ m.blocks rk (m.chainAfter rk prev xs) ys := by
  induction xs generalizing prev with
  | nil => rw [m.blocks_nil]; rfl
  | cons x xs ih => rw [List.cons_append, m.blocks_cons, ih, m.blocks_cons]; rfl

/-- Block `j` of the result, from block `j` and the ciphertext block before it, with `IV` before the first. -/
theorem CbcMode.getElem?_blocks (m : CbcMode) (rk : RoundKeys) (prev : Block) {xs : List Block} {j : Nat}
    (h : j < xs.length) :
    (m.blocks rk prev xs)[j]? =
      some (m.out rk ((prev :: m.ciphertext rk prev xs).getD j zeroBlock) (xs.getD j zeroBlock)) := by
  induction xs generalizing prev j with
  | nil => exact absurd h (Nat.not_lt_zero j)
  | cons x xs ih =>
    rw [m.blocks_cons, m.ciphertext_cons]
    cases j with
    | zero => rfl
    | succ j => exact ih _ (Nat.lt_of_succ_lt_succ h)

theorem getD_cons_eq_ite (a d : Block) (xs : List Block) (j : Nat) :
    (a :: xs).getD j d = if j = 0 then a else xs.getD (j - 1) d := by
  cases j <;> rfl

theorem cbcEncrypt_getElem? (key iv : Block) {plain : List Block} {j : Nat} (h : j < plain.length) :
    (cbcEncrypt key iv plain)[j]? =
      some (aesEncrypt (keyExpansion key) (xorBlock (plain.getD j zeroBlock)
        (if j = 0 then iv else (cbcEncrypt key iv plain).getD (j - 1) zeroBlock))) := by
  rw [← getD_cons_eq_ite]
  exact CbcMode.encrypt.getElem?_blocks (keyExpansion key) iv h

theorem cbcDecrypt_getElem? (key iv : Block) {cipher : List Block} {j : Nat} (h : j < cipher.length) :
    (cbcDecrypt key iv cipher)[j]? =
      some (xorBlock (aesDecrypt (keyExpansion key) (cipher.getD j zeroBlock))
        (if j = 0 then iv else cipher.getD (j - 1) zeroBlock)) := by
  rw [← getD_cons_eq_ite]
  exact CbcMode.decrypt.getElem?_blocks (keyExpansion key) iv h

/-! ### The inverse law (42_cbc_engine.md R200, R201) -/

theorem cbcDecryptFrom_cbcEncryptFrom (rk : RoundKeys) (prev : Block) (plain : List Block) :
    cbcDecryptFrom rk prev (cbcEncryptFrom rk prev plain) = plain := by
  induction plain generalizing prev with
  | nil => rfl
  | cons p rest ih => simp only [cbcEncryptFrom, cbcDecryptFrom, aesDecrypt_aesEncrypt, xorBlock_cancel_right, ih]

theorem cbcDecrypt_cbcEncrypt (key iv : Block) (plain : List Block) :
    cbcDecrypt key iv (cbcEncrypt key iv plain) = plain :=
  cbcDecryptFrom_cbcEncryptFrom (keyExpansion key) iv plain

@[simp] theorem length_cbcEncrypt (key iv : Block) (plain : List Block) :
    (cbcEncrypt key iv plain).length = plain.length := length_cbcEncryptFrom _ _ _

@[simp] theorem length_cbcDecrypt (key iv : Block) (cipher : List Block) :
    (cbcDecrypt key iv cipher).length = cipher.length := length_cbcDecryptFrom _ _ _

/-- Settles O44: both equations are those of one direction, and each block step undoes the other direction's. -/
theorem cbcDecryptInvertsEncrypt : Obligations.CbcDecryptInvertsEncrypt :=
  fun key iv blocks =>
    ⟨fun _ h => cbcEncrypt_getElem? key iv h, fun _ h => cbcDecrypt_getElem? key iv h,
      length_cbcEncrypt key iv blocks, length_cbcDecrypt key iv blocks, cbcDecrypt_cbcEncrypt key iv blocks⟩

/-! ### A changed ciphertext block (42_cbc_engine.md R210) -/

theorem getD_set_ne {xs : List Block} {i j : Nat} (c d : Block) (h : i ≠ j) : (xs.set j c).getD i d = xs.getD i d := by
  rw [List.getD_eq_getElem?_getD, List.getD_eq_getElem?_getD, List.getElem?_set_ne h.symm]

theorem getD_set_self {xs : List Block} {j : Nat} (c d : Block) (h : j < xs.length) : (xs.set j c).getD j d = c := by
  rw [List.getD_eq_getElem?_getD, List.getElem?_set_self h, Option.getD_some]

theorem xorBlock_xorBlock_xorBlock (a b c : Block) : xorBlock (xorBlock a b) (xorBlock b c) = xorBlock a c :=
  block_ext fun k => by simp [BitVec.xor_assoc, ← BitVec.xor_assoc (b[k.val])]

/-- The blocks of a decryption in which ciphertext block `j` is replaced by `c`. -/
theorem cbcDecrypt_set_getElem? (key iv c : Block) {cipher : List Block} (j : Nat) {i : Nat} (h : i < cipher.length) :
    (cbcDecrypt key iv (cipher.set j c))[i]? =
      some (xorBlock (aesDecrypt (keyExpansion key) ((cipher.set j c).getD i zeroBlock))
        (if i = 0 then iv else (cipher.set j c).getD (i - 1) zeroBlock)) :=
  cbcDecrypt_getElem? key iv (by rwa [List.length_set])

/-- Only the block after the changed one sees another ciphertext block before it. -/
theorem previous_set (iv c d : Block) (xs : List Block) {i j : Nat} (h : i ≠ j + 1) :
    (if i = 0 then iv else (xs.set j c).getD (i - 1) d) = if i = 0 then iv else xs.getD (i - 1) d := by
  cases i with
  | zero => rfl
  | succ i => exact getD_set_ne c d (by omega)

/-- Settles O51: plaintext block `i` is made of ciphertext blocks `i` and `i - 1` alone. -/
theorem decryptionErrorsStayLocal : Obligations.DecryptionErrorsStayLocal := by
  intro key iv c blocks j hj
  refine ⟨fun i hi hi' => ?other, ?block, fun p hp => ?next⟩
  case other =>
    by_cases hlt : i < blocks.length
    · rw [cbcDecrypt_set_getElem? key iv c j hlt, cbcDecrypt_getElem? key iv hlt, getD_set_ne _ _ hi,
        previous_set _ _ _ _ hi']
    · rw [List.getElem?_eq_none (by simpa using hlt), List.getElem?_eq_none (by simpa using hlt)]
  case block =>
    rw [cbcDecrypt_set_getElem? key iv c j hj, getD_set_self _ _ hj, previous_set _ _ _ _ (by omega)]
  case next =>
    have hlt : j + 1 < blocks.length := by
      obtain ⟨hlt, -⟩ := List.getElem?_eq_some_iff.mp hp
      rwa [length_cbcDecrypt] at hlt
    rw [cbcDecrypt_getElem? key iv hlt] at hp
    obtain rfl := Option.some.inj hp
    rw [cbcDecrypt_set_getElem? key iv c j hlt, getD_set_ne _ _ (Nat.succ_ne_self j), if_neg (Nat.succ_ne_zero j),
      if_neg (Nat.succ_ne_zero j), Nat.add_sub_cancel, getD_set_self _ _ hj, xorBlock_xorBlock_xorBlock]

end Sys2Proof.Machine
end

section
/-! SUPPORT. The statements on `ENC` and `DEC`: their accept check, their core steps, and a command from its issue to
its completion by the core's turns alone. -/

namespace Sys2Proof.Machine

/-! ### The commands of the two directions (42_cbc_engine.md R202 to R205) -/

/-- The command of the direction. -/
def CbcMode.instr (m : CbcMode) : Instr :=
  match m with
  | .encrypt => .enc
  | .decrypt => .dec

/-- The `FSM.op` of that command while it is busy. -/
def CbcMode.op (m : CbcMode) : Op :=
  match m with
  | .encrypt => .enc
  | .decrypt => .dec

theorem CbcMode.exists_instr {i : Instr} (h : i = .enc ∨ i = .dec) : ∃ m : CbcMode, i = m.instr :=
  h.elim (fun he => ⟨.encrypt, he⟩) fun hd => ⟨.decrypt, hd⟩

theorem CbcMode.exists_op {op : Op} (h : op = .enc ∨ op = .dec) : ∃ m : CbcMode, op = m.op :=
  h.elim (fun he => ⟨.encrypt, he⟩) fun hd => ⟨.decrypt, hd⟩

theorem CbcMode.op_enc_or_dec (m : CbcMode) : m.op = .enc ∨ m.op = .dec := by
  cases m with
  | encrypt => exact .inl rfl
  | decrypt => exact .inr rfl

theorem CbcMode.acceptOf_instr (m : CbcMode) : acceptOf m.instr = cipherAccept m.op := by
  cases m <;> rfl

/-! ### The accept check (42_cbc_engine.md R202, R204) -/

theorem cipherLen_iff (plen : Byte) : cipherLen plen = true ↔ plen = 16 ∨ plen = 32 ∨ plen = 48 ∨ plen = 64 := by
  simp [cipherLen, or_assoc]

/-- `PLEN` of `n` whole blocks passes the check for one to four blocks. -/
theorem cipherLen_iff_of_eq {plen : Byte} {n : Nat} (h : plen.toNat = 16 * n) :
    cipherLen plen = true ↔ 1 ≤ n ∧ n ≤ 4 := by
  simp only [cipherLen_iff, ← BitVec.toNat_inj, BitVec.ofNat_eq_ofNat, BitVec.toNat_ofNat, h]
  omega

theorem blockCount_of_eq {plen : Byte} {n : Nat} (h : plen.toNat = 16 * n) : blockCount plen = n := by
  rw [blockCount, h]
  exact Nat.mul_div_cancel_left n (by decide)

theorem CbcMode.exec_refused (m : CbcMode) {s : State} (hb : s.busy = false) (h : ¬cipherLen s.plen = true) :
    exec m.instr s = .next { s with done := true, errcode := 0x03 } := by
  have haccept : cipherAccept m.op (beginIssue s) = complete .invalidInput (beginIssue s) := if_neg h
  rw [exec_idle _ hb, m.acceptOf_instr, haccept, complete_beginIssue _ hb]
  rfl

theorem CbcMode.exec_accepted (m : CbcMode) {s : State} (hb : s.busy = false) (h : cipherLen s.plen = true) :
    exec m.instr s = .next (start m.op .kexp (blockCount s.plen) (beginIssue s)) := by
  have haccept : cipherAccept m.op (beginIssue s) = start m.op .kexp (blockCount s.plen) (beginIssue s) := if_pos h
  rw [exec_idle _ hb, m.acceptOf_instr, haccept]

/-- Settles O45, by the two ways the accept check goes. -/
theorem CbcEngine.cipherAccept : Obligations.CipherAccept := by
  refine ⟨rfl, rfl, fun s hb => ⟨fun h => ?refused, fun h => ?accepted⟩⟩
  case refused =>
    have hlen : ¬cipherLen s.plen = true := mt (cipherLen_iff s.plen).mp h
    exact ⟨CbcMode.encrypt.exec_refused hb hlen, CbcMode.decrypt.exec_refused hb hlen⟩
  case accepted =>
    have hlen : cipherLen s.plen = true := (cipherLen_iff s.plen).mpr h
    exact ⟨CbcMode.encrypt.exec_accepted hb hlen, CbcMode.decrypt.exec_accepted hb hlen⟩

/-! ### One core step (42_cbc_engine.md R203, R205) -/

/-- The block step of either command inside the buffer. -/
theorem CbcMode.busyStep_blk (m : CbcMode) {s : State} (hop : s.fsm.op = m.op) (hp : s.fsm.phase = .blk)
    (hj : s.fsm.j < 4) :
    busyStep s = .next (finishBlock (m.out s.rk s.cv (readBlock s.buf s.fsm.j))
      (m.chain s.rk s.cv (readBlock s.buf s.fsm.j)) s) := by
  cases m with
  | encrypt => exact (busyStep_enc hop).trans (encStep_blk hp hj)
  | decrypt => exact (busyStep_dec hop).trans (decStep_blk hp hj)

/-- `s` with block `j` of the buffer replaced, the chaining value advanced, and `j` counted up. -/
def storeBlock (out chain : Block) (s : State) : State :=
  { s with buf := writeBlock s.buf s.fsm.j out, cv := chain, fsm := { s.fsm with j := s.fsm.j + 1 } }

theorem finishBlock_last {out chain : Block} {s : State} (h : s.fsm.j + 1 = s.fsm.nblk) :
    finishBlock out chain s = complete .none (storeBlock out chain s) := if_pos h

theorem finishBlock_not_last {out chain : Block} {s : State} (h : s.fsm.j + 1 ≠ s.fsm.nblk) :
    finishBlock out chain s = storeBlock out chain s := if_neg h

/-- What a block step of the direction does before the test for the last block (42_cbc_engine.md R203, R205). -/
def CbcMode.blockStep (m : CbcMode) (s : State) : State :=
  storeBlock (m.out s.rk s.cv (readBlock s.buf s.fsm.j)) (m.chain s.rk s.cv (readBlock s.buf s.fsm.j)) s

section
variable (m : CbcMode) {s : State} (hb : s.busy = true) (hop : s.fsm.op = m.op) (hp : s.fsm.phase = .blk)
  (hj : s.fsm.j < 4)
include hb hop hp hj

theorem CbcMode.coreStep_blk :
    coreStep s = .next (finishBlock (m.out s.rk s.cv (readBlock s.buf s.fsm.j))
      (m.chain s.rk s.cv (readBlock s.buf s.fsm.j)) s) :=
  (coreStep_busy hb).trans (m.busyStep_blk hop hp hj)

theorem CbcMode.coreStep_blk_last (h : s.fsm.j + 1 = s.fsm.nblk) :
    coreStep s = .next (complete .none (m.blockStep s)) :=
  (m.coreStep_blk hb hop hp hj).trans (congrArg _ (finishBlock_last h))

theorem CbcMode.coreStep_blk_not_last (h : s.fsm.j + 1 ≠ s.fsm.nblk) : coreStep s = .next (m.blockStep s) :=
  (m.coreStep_blk hb hop hp hj).trans (congrArg _ (finishBlock_not_last h))

end

@[simp] theorem finishBlock_cv (out chain : Block) (s : State) : (finishBlock out chain s).cv = chain := by
  obtain ⟨-, h⟩ | ⟨-, h⟩ := finishBlock_cases out chain s <;> simp [h]

@[simp] theorem finishBlock_j (out chain : Block) (s : State) : (finishBlock out chain s).fsm.j = s.fsm.j + 1 := by
  obtain ⟨-, h⟩ | ⟨-, h⟩ := finishBlock_cases out chain s <;> simp [h]

theorem readBlock_finishBlock (out chain : Block) (s : State) :
    readBlock (finishBlock out chain s).buf s.fsm.j = out := by
  rw [finishBlock_buf, readBlock_writeBlock_same]

/-- Settles O46: both commands share the key-expansion step and the end of a block step. -/
theorem cipherCoreSteps : Obligations.CipherCoreSteps := by
  intro s hb
  refine ⟨fun hop hp => ?kexp, fun hp hj hop => ?enc, fun hp hj hop => ?dec, fun hp hj hop => ?blk⟩
  case kexp => exact (coreStep_busy hb).trans (busyStep_kexp hop hp)
  case enc =>
    have hout := readBlock_finishBlock (encBlock s) (encBlock s) s
    exact ⟨_, CbcMode.encrypt.coreStep_blk hb hop hp (by omega), hout, (finishBlock_cv _ _ s).trans hout.symm⟩
  case dec =>
    exact ⟨_, CbcMode.decrypt.coreStep_blk hb hop hp (by omega), readBlock_finishBlock _ _ s, finishBlock_cv _ _ s⟩
  case blk =>
    obtain ⟨m, hop⟩ := CbcMode.exists_op hop
    refine ⟨_, m.coreStep_blk hb hop hp (by omega), finishBlock_j _ _ s, fun x hx => ?_, fun hlast => ?_,
      fun hmore => ?_⟩
    · rw [finishBlock_buf, readByte_writeBlock_outside _ _ hx]
    · rw [finishBlock_last hlast]
      rfl
    · rw [finishBlock_not_last hmore]
      rfl

/-! ### The buffer while a command is busy -/

theorem readBlocks_succ (b : Memory) (n : Nat) : readBlocks b (n + 1) = readBlocks b n ++ [readBlock b n] := by
  simp [readBlocks, List.range_succ]

theorem readBlocks_writeBlock (b : Memory) (n : Nat) (x : Block) : readBlocks (writeBlock b n x) n = readBlocks b n :=
  List.map_congr_left fun _ hj => readBlock_writeBlock_other b x (Nat.ne_of_lt (List.mem_range.mp hj))

/-- Blocks that agree are bytes that agree. -/
theorem readBlocks_eq_iff (b b' : Memory) (n : Nat) :
    readBlocks b n = readBlocks b' n ↔ ∀ x, x < 16 * n → readByte b x = readByte b' x := by
  unfold readBlocks
  rw [List.map_inj_left]
  refine ⟨fun h x hx => ?bytes, fun h _ hj => block_ext fun k => ?blocks⟩
  case bytes =>
    have hk : x % 16 < 16 := Nat.mod_lt x (by decide)
    have hblock := h (x / 16) (List.mem_range.mpr (by omega))
    have hbyte : (readBlock b (x / 16))[x % 16] = (readBlock b' (x / 16))[x % 16] := by rw [hblock]
    simpa only [getElem_readBlock, Nat.div_add_mod] using hbyte
  case blocks =>
    rw [getElem_readBlock, getElem_readBlock]
    rw [List.mem_range] at hj
    exact h _ (by omega)

theorem take_readBlocks (b : Memory) {k n : Nat} (h : k ≤ n) : (readBlocks b n).take k = readBlocks b k := by
  rw [readBlocks, ← List.map_take, List.take_range, Nat.min_eq_left h, readBlocks]

/-- The chaining value after the first `k` blocks of the buffer `b`. -/
def CbcMode.cvAfter (m : CbcMode) (rk : RoundKeys) (iv : Block) (b : Memory) (k : Nat) : Block :=
  m.chainAfter rk iv (readBlocks b k)

/-- The buffer after the first `k` block steps on the buffer `b`. -/
def CbcMode.bufAfter (m : CbcMode) (rk : RoundKeys) (iv : Block) (b : Memory) (k : Nat) : Memory :=
  match k with
  | 0 => b
  | j + 1 => writeBlock (m.bufAfter rk iv b j) j (m.out rk (m.cvAfter rk iv b j) (readBlock b j))

section
variable (m : CbcMode) (rk : RoundKeys) (iv : Block) (b : Memory)

theorem CbcMode.cvAfter_succ (k : Nat) :
    m.cvAfter rk iv b (k + 1) = m.chain rk (m.cvAfter rk iv b k) (readBlock b k) := by
  rw [cvAfter, readBlocks_succ, chainAfter, List.foldl_append]
  rfl

theorem CbcMode.readByte_bufAfter_above {k x : Nat} (h : 16 * k ≤ x) :
    readByte (m.bufAfter rk iv b k) x = readByte b x := by
  induction k with
  | zero => rfl
  | succ k ih => rw [bufAfter, readByte_writeBlock_outside _ _ (by omega), ih (by omega)]

theorem CbcMode.readBlock_bufAfter_next (k : Nat) : readBlock (m.bufAfter rk iv b k) k = readBlock b k :=
  block_ext fun i => by
    rw [getElem_readBlock, getElem_readBlock, m.readByte_bufAfter_above rk iv b (Nat.le_add_right _ _)]

/-- The block steps turn the blocks of the buffer into what CBC makes of them. -/
theorem CbcMode.readBlocks_bufAfter (k : Nat) :
    readBlocks (m.bufAfter rk iv b k) k = m.blocks rk iv (readBlocks b k) := by
  induction k with
  | zero => exact (m.blocks_nil rk iv).symm
  | succ k ih =>
    rw [readBlocks_succ, bufAfter, readBlocks_writeBlock, readBlock_writeBlock_same, ih, readBlocks_succ,
      m.blocks_append, m.blocks_cons, m.blocks_nil, cvAfter]

end

/-! ### From issue to completion by the core's turns (42_cbc_engine.md R206) -/

/-- The busy block after `k` core steps of a command on `n` blocks that was issued in `s`. -/
def CbcMode.running (m : CbcMode) (n : Nat) (s : State) (k : Nat) : State :=
  match k with
  | 0 => start m.op .kexp n s
  | j + 1 => { s with
      buf := m.bufAfter (keyExpansion s.key) s.ivConst s.buf j
      cv := m.cvAfter (keyExpansion s.key) s.ivConst s.buf j
      rk := keyExpansion s.key
      fsm := { mode := .busy, op := m.op, phase := .blk, j := j, nblk := n } }

/-- The block in which that command ends. -/
def CbcMode.finished (m : CbcMode) (n : Nat) (s : State) : State := complete .none (m.running n s (n + 1))

section
variable (m : CbcMode) {n : Nat}

theorem CbcMode.running_busy (n : Nat) (s : State) (k : Nat) : (m.running n s k).busy = true := by
  cases k <;> rfl

theorem CbcMode.blockStep_running (s : State) (j : Nat) :
    m.blockStep (m.running n s (j + 1)) = m.running n s (j + 2) := by
  simp only [blockStep, storeBlock, running, bufAfter, cvAfter_succ, readBlock_bufAfter_next]

/-- Every core step but the last leaves the command busy. -/
theorem CbcMode.coreStep_running (s : State) {k : Nat} (hk : k < n) (hn : n ≤ 4) :
    coreStep (m.running n s k) = .next (m.running n s (k + 1)) := by
  cases k with
  | zero => exact (coreStep_busy rfl).trans (busyStep_kexp m.op_enc_or_dec rfl)
  | succ j =>
    rw [m.coreStep_blk_not_last (m.running_busy n s (j + 1)) rfl rfl (show j < 4 by omega) (show j + 1 ≠ n by omega),
      m.blockStep_running]

theorem CbcMode.coreStep_running_last (s : State) (h1 : 1 ≤ n) (h4 : n ≤ 4) :
    coreStep (m.running n s n) = .next (m.finished n s) := by
  obtain ⟨j, rfl⟩ := Nat.exists_eq_add_of_le' h1
  rw [m.coreStep_blk_last (m.running_busy _ s (j + 1)) rfl rfl (show j < 4 by omega) rfl, m.blockStep_running, finished]

theorem CbcMode.coreSteps_running (s : State) (h1 : 1 ≤ n) (h4 : n ≤ 4) {k d : Nat} (h : k + d = n) :
    coreSteps (d + 1) (m.running n s k) = .next (m.finished n s) := by
  induction d generalizing k with
  | zero =>
    obtain rfl : k = n := h
    exact coreSteps_succ_of_next (m.coreStep_running_last s h1 h4)
  | succ d ih =>
    rw [coreSteps_succ_of_next (m.coreStep_running s (by omega) h4)]
    exact ih (by omega)

variable {s : State} (hb : s.busy = false) (h1 : 1 ≤ n) (h4 : n ≤ 4) (hplen : s.plen.toNat = 16 * n)
include hb h1 h4 hplen

theorem CbcMode.exec_running : exec m.instr s = .next (m.running n (beginIssue s) 0) := by
  rw [m.exec_accepted hb ((cipherLen_iff_of_eq hplen).mpr ⟨h1, h4⟩), blockCount_of_eq hplen, running]

theorem CbcMode.coreSteps_issued {t : State} (ht : exec m.instr s = .next t) :
    coreSteps (1 + n) t = .next (m.finished n (beginIssue s)) := by
  obtain rfl := Host.Outcome.next.inj ((m.exec_running hb h1 h4 hplen).symm.trans ht)
  rw [Nat.add_comm]
  exact m.coreSteps_running (beginIssue s) h1 h4 (Nat.zero_add n)

end

/-- The last chaining value of `ENC` is the last ciphertext block, which it has stored. -/
theorem cvAfter_encrypt (rk : RoundKeys) (iv : Block) (b : Memory) {n : Nat} (h : 1 ≤ n) :
    CbcMode.encrypt.cvAfter rk iv b n = readBlock (CbcMode.encrypt.bufAfter rk iv b n) (n - 1) := by
  obtain ⟨j, rfl⟩ := Nat.exists_eq_add_of_le' h
  exact (CbcMode.encrypt.cvAfter_succ rk iv b j).trans (readBlock_writeBlock_same _ _ _).symm

/-- The last chaining value of `DEC` is the last ciphertext block, which it was given. -/
theorem cvAfter_decrypt (rk : RoundKeys) (iv : Block) (b : Memory) {n : Nat} (h : 1 ≤ n) :
    CbcMode.decrypt.cvAfter rk iv b n = readBlock b (n - 1) := by
  obtain ⟨j, rfl⟩ := Nat.exists_eq_add_of_le' h
  exact CbcMode.decrypt.cvAfter_succ rk iv b j

/-- Settles O47: the run ends in `finished`, the buffer of which the block steps have made. -/
theorem encRunsCbcEncrypt : Obligations.EncRunsCbcEncrypt := by
  intro s n hb h1 h4 hplen
  have hissue := CbcMode.encrypt.exec_running hb h1 h4 hplen
  exact ⟨_, _, hissue, CbcMode.encrypt.coreSteps_issued hb h1 h4 hplen hissue,
    CbcMode.readBlocks_bufAfter .encrypt _ _ _ n, fun _ hx => CbcMode.readByte_bufAfter_above _ _ _ _ hx,
    cvAfter_encrypt _ _ _ h1, rfl, rfl, rfl⟩

/-- Settles O48: the run ends in `finished`, the buffer of which the block steps have made. -/
theorem decRunsCbcDecrypt : Obligations.DecRunsCbcDecrypt := by
  intro s n hb h1 h4 hplen
  have hissue := CbcMode.decrypt.exec_running hb h1 h4 hplen
  exact ⟨_, _, hissue, CbcMode.decrypt.coreSteps_issued hb h1 h4 hplen hissue,
    CbcMode.readBlocks_bufAfter .decrypt _ _ _ n, fun _ hx => CbcMode.readByte_bufAfter_above _ _ _ _ hx,
    cvAfter_decrypt _ _ _ h1, rfl, rfl, rfl⟩

/-! ### What the result depends on (42_cbc_engine.md R207, R209) -/

/-- An `ENC` or `DEC` that is accepted and run to its completion ends with code 0 and CBC of its blocks. -/
theorem CbcMode.run_result (m : CbcMode) {s t u : State} {n : Nat} (hb : s.busy = false) (h1 : 1 ≤ n) (h4 : n ≤ 4)
    (hplen : s.plen.toNat = 16 * n) (ht : exec m.instr s = .next t) (hu : coreSteps (1 + n) t = .next u) :
    u.errcode = 0x00 ∧ readBlocks u.buf n = m.blocks (keyExpansion s.key) s.ivConst (readBlocks s.buf n) := by
  obtain rfl := Host.Outcome.next.inj ((m.coreSteps_issued hb h1 h4 hplen ht).symm.trans hu)
  exact ⟨rfl, m.readBlocks_bufAfter _ _ _ _⟩

/-- An `ENC` or `DEC` that is refused leaves the buffer, whatever turns the core has then. -/
theorem CbcMode.refused_result (m : CbcMode) {s t u : State} {n : Nat} (hb : s.busy = false)
    (hlen : ¬cipherLen s.plen = true) (ht : exec m.instr s = .next t) (hu : coreSteps n t = .next u) :
    u.errcode = 0x03 ∧ u.buf = s.buf := by
  obtain rfl := Host.Outcome.next.inj ((m.exec_refused hb hlen).symm.trans ht)
  have hidle := coreSteps_idle (s := { s with done := true, errcode := 0x03 }) hb n
  obtain rfl := Host.Outcome.next.inj (hidle.symm.trans hu)
  exact ⟨rfl, rfl⟩

/-- Settles O49: both commands are accepted and compute CBC of equal blocks, or both are refused. -/
theorem noRetainedCipherContext : Obligations.NoRetainedCipherContext := by
  intro s₁ s₂ t₁ t₂ u₁ u₂ i n hi hb₁ hb₂ hn hplen hkey hiv hbuf ht₁ ht₂ hu₁ hu₂
  obtain ⟨m, rfl⟩ := CbcMode.exists_instr hi
  by_cases hlen : cipherLen s₁.plen = true
  case pos =>
    obtain ⟨h1, h4⟩ := (cipherLen_iff_of_eq hn).mp hlen
    obtain ⟨hcode₁, hblocks₁⟩ := m.run_result hb₁ h1 h4 hn ht₁ hu₁
    obtain ⟨hcode₂, hblocks₂⟩ := m.run_result hb₂ h1 h4 (hplen ▸ hn) ht₂ hu₂
    refine ⟨hcode₁.trans hcode₂.symm, (readBlocks_eq_iff _ _ n).mp ?_⟩
    rw [hblocks₂, hblocks₁, hkey, hiv, (readBlocks_eq_iff _ _ n).mpr hbuf]
  case neg =>
    obtain ⟨hcode₁, hbuf₁⟩ := m.refused_result hb₁ hlen ht₁ hu₁
    obtain ⟨hcode₂, hbuf₂⟩ := m.refused_result hb₂ (hplen ▸ hlen) ht₂ hu₂
    rw [hcode₁, hcode₂, hbuf₁, hbuf₂]
    exact ⟨rfl, hbuf⟩

/-- The first blocks of the result come from the first blocks alone. -/
theorem CbcMode.take_blocks (m : CbcMode) (rk : RoundKeys) (prev : Block) (xs : List Block) (k : Nat) :
    (m.blocks rk prev xs).take k = m.blocks rk prev (xs.take k) := by
  induction xs generalizing prev k with
  | nil => rw [m.blocks_nil, List.take_nil, m.blocks_nil]
  | cons x xs ih =>
    cases k with
    | zero => exact (m.blocks_nil rk prev).symm
    | succ k => rw [m.blocks_cons, List.take_succ_cons, ih, List.take_succ_cons, m.blocks_cons]

/-- The first `k` blocks after an accepted command are CBC of the first `k` blocks before it. -/
theorem CbcMode.run_result_first (m : CbcMode) {s t u : State} {n k : Nat} (hb : s.busy = false) (h1 : 1 ≤ n)
    (h4 : n ≤ 4) (hplen : s.plen.toNat = 16 * n) (hk : k ≤ n) (ht : exec m.instr s = .next t)
    (hu : coreSteps (1 + n) t = .next u) :
    readBlocks u.buf k = m.blocks (keyExpansion s.key) s.ivConst (readBlocks s.buf k) := by
  obtain ⟨-, hblocks⟩ := m.run_result hb h1 h4 hplen ht hu
  rw [← take_readBlocks _ hk, hblocks, m.take_blocks, take_readBlocks _ hk]

/-- Settles O50: equal first blocks, the same round keys and the same `IV` give equal first blocks. -/
theorem equalPrefixesEncryptEqually : Obligations.EqualPrefixesEncryptEqually := by
  intro s₁ s₂ t₁ t₂ u₁ u₂ n₁ n₂ k hb₁ hb₂ h1₁ h4₁ h1₂ h4₂ hplen₁ hplen₂ hkey hiv hk₁ hk₂ hbuf ht₁ ht₂ hu₁ hu₂
  have hblocks₁ := CbcMode.encrypt.run_result_first hb₁ h1₁ h4₁ hplen₁ hk₁ ht₁ hu₁
  have hblocks₂ := CbcMode.encrypt.run_result_first hb₂ h1₂ h4₂ hplen₂ hk₂ ht₂ hu₂
  refine (readBlocks_eq_iff _ _ k).mp ?_
  rw [hblocks₂, hblocks₁, hkey, hiv, (readBlocks_eq_iff _ _ k).mpr hbuf]

end Sys2Proof.Machine
end

section
/-! SUPPORT. The statements on runs of `ENC` and `DEC` among host events: a command from its issue to its completion
under any schedule, what may come between two commands, and the round trips. -/

namespace Sys2Proof.Machine

/-! ### A busy command among host accesses (42_cbc_engine.md R206, 20_memory.md R82) -/

theorem isBusyPeriodEvent_cases {e : Event} (h : isBusyPeriodEvent e = true) : e = .core ∨ isHostEvent e = true := by
  cases e with
  | core => exact .inl rfl
  | read a => exact .inr rfl
  | write a v => exact .inr rfl
  | reset => cases h

section
variable (m : CbcMode) {n : Nat}

theorem CbcMode.takeEvent_running (n : Nat) (rest : List Event) (s : State) (k : Nat) :
    takeEvent rest (m.running n s k) = m.running n (takeEvent rest s) k := by
  cases k <;> rfl

theorem CbcMode.inputs_running (n : Nat) (s : State) (k : Nat) : (m.running n s k).inputs = s.inputs := by
  cases k <;> rfl

/-- What the host does while the command is busy it might as well have done before the issue. -/
theorem CbcMode.running_of_busyHostFrame {s t : State} {rest : List Event} {k : Nat}
    (h : BusyHostFrame rest (m.running n s k) t) : ∃ s', BusyHostFrame rest s s' ∧ t = m.running n s' k :=
  ⟨{ s with inputs := rest, rdata := t.rdata, done := t.done, wbusy := t.wbusy, draws := t.draws }, rfl,
    Eq.trans h (by cases k <;> rfl)⟩

/-- The command completes at the core's last turn, however host accesses fall among the turns. -/
theorem CbcMode.runSteps_running {s : State} {es rest : List Event} {k : Nat} (h1 : 1 ≤ n) (h4 : n ≤ 4)
    (hes : es.all isBusyPeriodEvent = true) (hcount : k + es.count .core = n) (hi : s.inputs = es ++ .core :: rest) :
    ∃ s', BusyHostFrame rest s s' ∧ runSteps (es.length + 1) (m.running n s k) = .next (m.finished n s') := by
  induction es generalizing s k with
  | nil =>
    obtain rfl : k = n := hcount
    refine ⟨takeEvent rest s, rfl, runSteps_succ_of_next ?_⟩
    rw [step_core ((m.inputs_running k s k).trans hi), m.takeEvent_running, m.coreStep_running_last _ h1 h4]
  | cons e es ih =>
    rw [List.all_cons, Bool.and_eq_true] at hes
    rw [List.cons_append] at hi
    obtain rfl | he := isBusyPeriodEvent_cases hes.1
    · rw [List.count_cons_self] at hcount
      have hstep : step (m.running n s k) = .next (m.running n (takeEvent (es ++ .core :: rest) s) (k + 1)) := by
        rw [step_core ((m.inputs_running n s k).trans hi), m.takeEvent_running, m.coreStep_running _ (by omega) h4]
      obtain ⟨s', hframe, hrun⟩ := ih (s := takeEvent (es ++ .core :: rest) s) (k := k + 1) hes.2 (by omega) rfl
      exact ⟨s', hframe, (runSteps_succ_of_next hstep).trans hrun⟩
    · have hne : e ≠ .core := by
        rintro rfl
        cases he
      rw [List.count_cons_of_ne hne] at hcount
      obtain ⟨t, hstep, hframe⟩ := step_host_busy (m.running_busy n s k) he ((m.inputs_running n s k).trans hi)
      obtain ⟨s₁, hframe₁, rfl⟩ := m.running_of_busyHostFrame hframe
      obtain ⟨s', hframe', hrun⟩ := ih hes.2 hcount hframe₁.inputs
      exact ⟨s', hframe₁.trans hframe', (runSteps_succ_of_next hstep).trans hrun⟩

/-- `t` is what the command on `n` blocks, issued in `s`, leaves when it completes; the events to come are `rest`. -/
structure CbcMode.Completed (m : CbcMode) (n : Nat) (rest : List Event) (s t : State) : Prop where
  inputs : t.inputs = rest
  busy : t.busy = false
  errcode : t.errcode = 0x00
  key : t.key = s.key
  ivConst : t.ivConst = s.ivConst
  plen : t.plen = s.plen
  buf : t.buf = m.bufAfter (keyExpansion s.key) s.ivConst s.buf n

theorem CbcMode.completed_finished {s s' : State} {es rest : List Event}
    (h : BusyHostFrame rest (beginIssue (takeEvent es s)) s') :
    m.Completed n rest s (m.finished n s') := by
  rw [h]
  exact ⟨rfl, rfl, rfl, rfl, rfl, rfl, rfl⟩

/-- A command that is accepted, run to completion under any schedule (42_cbc_engine.md R206). -/
theorem CbcMode.runSteps_command {s : State} {es rest : List Event} (hb : s.busy = false) (h1 : 1 ≤ n) (h4 : n ≤ 4)
    (hplen : s.plen.toNat = 16 * n) (hes : es.all isBusyPeriodEvent = true) (hcount : es.count .core = n)
    (hi : s.inputs = .write 0x50 (encode m.instr) :: (es ++ .core :: rest)) :
    ∃ t, runSteps (es.length + 2) s = .next t ∧ m.Completed n rest s t := by
  have hissue := (step_command hi (encodedCommandDecodesToItself m.instr)).trans
    (m.exec_running (s := takeEvent (es ++ .core :: rest) s) hb h1 h4 hplen)
  obtain ⟨s', hframe, hrun⟩ := m.runSteps_running (s := beginIssue (takeEvent (es ++ .core :: rest) s)) (k := 0) h1 h4
    hes (hcount ▸ Nat.zero_add _) rfl
  exact ⟨_, (runSteps_succ_of_next hissue).trans hrun, m.completed_finished hframe⟩

end

/-! ### Between two commands (42_cbc_engine.md R208) -/

theorem keepsBuffer_of_keepsCipherInput {e : Event} (h : keepsCipherInput e = true) : keepsBuffer e = true := by
  cases e with
  | write a v =>
    simp only [keepsCipherInput, keepsBuffer, Bool.and_eq_true, decide_eq_true_eq, bne_iff_ne, ne_eq] at h ⊢
    obtain ⟨ha, hplen⟩ := h
    refine ⟨⟨by omega, ?_⟩, hplen⟩
    rintro rfl
    exact absurd ha (by decide)
  | read a => rfl
  | core => rfl
  | reset => exact h

theorem whenIdle_key {act : State → State} {s : State} (h : (act s).key = s.key) : (whenIdle act s).key = s.key := by
  cases hb : s.busy with
  | true => rw [whenIdle_busy act hb, dropWrite_key]
  | false => rw [whenIdle_idle act hb, h]

/-- A write above `CMD` reaches no byte of `KEY` (20_memory.md R71). -/
theorem busWrite_key_above {a v : Byte} {s t : State} (ha : 0x50 < a.toNat) (h : busWrite a v s = .next t) :
    t.key = s.key := by
  rcases addrTarget_cases a with ⟨hl, -⟩ | ⟨-, hl, -⟩ | rfl | rfl | rfl | rfl | rfl | rfl | ⟨hu, -⟩
  · omega
  · omega
  · exact absurd ha (by decide)
  · obtain rfl := Host.Outcome.next.inj ((busWrite_status v s).symm.trans h)
    rfl
  · obtain rfl := Host.Outcome.next.inj ((busWrite_errcode v s).symm.trans h)
    rfl
  · obtain rfl := Host.Outcome.next.inj ((busWrite_ctrl v s).symm.trans h)
    exact whenIdle_key rfl
  · obtain rfl := Host.Outcome.next.inj ((busWrite_mlen v s).symm.trans h)
    exact whenIdle_key rfl
  · obtain rfl := Host.Outcome.next.inj ((busWrite_plen v s).symm.trans h)
    exact whenIdle_key rfl
  · obtain rfl := Host.Outcome.next.inj ((busWrite_unmapped v s hu).symm.trans h)
    rfl

theorem step_keepsCipherInput_key {s t : State} {e : Event} {rest : List Event} (hb : s.busy = false)
    (he : keepsCipherInput e = true) (hi : s.inputs = e :: rest) (h : step s = .next t) : t.key = s.key := by
  rw [step_cons hi] at h
  cases e with
  | read a =>
    obtain rfl : hostRead a (takeEvent rest s) = t := Host.Outcome.next.inj h
    rfl
  | write a v =>
    rw [keepsCipherInput, Bool.and_eq_true, decide_eq_true_eq] at he
    exact busWrite_key_above (v := v) (s := takeEvent rest s) he.1 h
  | core =>
    obtain rfl : takeEvent rest s = t :=
      Host.Outcome.next.inj ((coreStep_idle (s := takeEvent rest s) hb).symm.trans h)
    rfl
  | reset => cases he

/-- Events that keep the input of a cipher command leave an idle block idle, with the same `BUF`, `PLEN` and `KEY`. -/
theorem runSteps_keepsCipherInput_idle {es rest : List Event} {s : State} (hb : s.busy = false)
    (hes : es.all keepsCipherInput = true) (hi : s.inputs = es ++ rest) :
    ∃ t, runSteps es.length s = .next t ∧ IdleKeepsFrame rest s t ∧ t.key = s.key := by
  induction es generalizing s with
  | nil =>
    obtain rfl : s.inputs = rest := hi
    exact ⟨s, rfl, rfl, rfl⟩
  | cons e es ih =>
    rw [List.all_cons, Bool.and_eq_true] at hes
    obtain ⟨t, ht, hst⟩ := step_keepsBuffer_idle hb (keepsBuffer_of_keepsCipherInput hes.1) hi
    have hst : IdleKeepsFrame (es ++ rest) s t := hst
    obtain ⟨u, hu, htu, hkey⟩ := ih (hst.busy.trans hb) hes.2 hst.inputs
    exact ⟨u, (runSteps_succ_of_next ht).trans hu, hst.trans htu,
      hkey.trans (step_keepsCipherInput_key hb hes.1 hi ht)⟩

theorem IdleKeepsFrame.ivConst {rest : List Event} {s t : State} (h : IdleKeepsFrame rest s t) :
    t.ivConst = s.ivConst := by
  rw [h]

/-! ### `ENC` and then `DEC` (42_cbc_engine.md R208) -/

/-- The block steps of `DEC` undo those of `ENC`, byte by byte. -/
theorem readByte_bufAfter_decrypt_encrypt (rk : RoundKeys) (iv : Block) (b : Memory) (n x : Nat) :
    readByte (CbcMode.decrypt.bufAfter rk iv (CbcMode.encrypt.bufAfter rk iv b n) n) x = readByte b x := by
  by_cases hx : x < 16 * n
  case pos =>
    refine (readBlocks_eq_iff _ _ n).mp ?_ x hx
    rw [CbcMode.readBlocks_bufAfter, CbcMode.readBlocks_bufAfter]
    exact cbcDecryptFrom_cbcEncryptFrom rk iv (readBlocks b n)
  case neg =>
    rw [Nat.not_lt] at hx
    rw [CbcMode.readByte_bufAfter_above _ _ _ _ hx, CbcMode.readByte_bufAfter_above _ _ _ _ hx]

/-- Settles O52: the run is `ENC`, then events that keep its input for `DEC`, then `DEC` under the same key. -/
theorem encThenDecRestoresBuffer : Obligations.EncThenDecRestoresBuffer := by
  intro s n es₁ es₂ es₃ rest hb h1 h4 hplen hes₁ hcount₁ hes₂ hes₃ hcount₃ hi
  obtain ⟨a, hrunA, doneA⟩ := CbcMode.encrypt.runSteps_command hb h1 h4 hplen hes₁ hcount₁ hi
  obtain ⟨b, hrunB, hframe, hkeyB⟩ := runSteps_keepsCipherInput_idle doneA.busy hes₂ doneA.inputs
  have hplenB : b.plen = s.plen := hframe.plen.trans doneA.plen
  obtain ⟨u, hrunU, doneU⟩ := CbcMode.decrypt.runSteps_command (hframe.busy.trans doneA.busy) h1 h4 (hplenB ▸ hplen)
    hes₃ hcount₃ hframe.inputs
  refine ⟨u, ?run, doneU.inputs, doneU.busy, doneU.errcode, doneU.plen.trans hplenB, fun x => ?bytes⟩
  case run =>
    have hsteps : es₁.length + es₂.length + es₃.length + 4 = (es₁.length + 2) + (es₂.length + (es₃.length + 2)) := by
      omega
    rw [hsteps, runSteps_add _ hrunA, runSteps_add _ hrunB, hrunU]
  case bytes =>
    rw [doneU.buf, hkeyB.trans doneA.key, hframe.ivConst.trans doneA.ivConst, hframe.buf, doneA.buf,
      readByte_bufAfter_decrypt_encrypt]

/-! ### The Workflow (70_reset_and_hazards.md R284) -/

/-- The padding check reads the buffer only byte by byte. -/
theorem padOK_congr {b b' : Memory} (len : Nat) (strict : Bool) (h : ∀ x, readByte b x = readByte b' x) :
    padOK len b strict = padOK len b' strict := by
  rw [Bool.eq_iff_iff, padOK_iff, padOK_iff]
  simp only [padByte, h]

/-- A run from the issue of `UNPAD` through one core's turn that ends idle ended in a completion. -/
theorem done_of_runSteps_unpad {s u : State} {rest : List Event} (hb : s.busy = false) (hl : s.plen.toNat ≤ 64)
    (hi : s.inputs = .write 0x50 0x02 :: .core :: rest) (hrun : runSteps 2 s = .next u) (hu : u.busy = false) :
    u.done = true := by
  have hexec (es : List Event) := exec_unpad_accepted (s := takeEvent es s) hb hl
  obtain ⟨t, turn, ht⟩ := runSteps_command (es := []) (encodedCommandDecodesToItself .unpad) hexec rfl hi
  obtain same | ⟨-, completed⟩ := coreStep_status (ht.symm.trans hrun)
  · rw [same.busy, turn.busy] at hu
    cases hu
  · exact completed.done

/-- Settles O53: `PAD`, then `ENC` and `DEC` by O52, then `UNPAD` of a buffer with the bytes that `PAD` left. -/
theorem workflowRecoversMessage : Obligations.WorkflowRecoversMessage := by
  intro s n rest hb hm hn hi
  have hm : s.mlen.toNat < 64 := by omega
  have hlen : padLen s.mlen.toNat = 16 * n := by
    have := padLen_mod s.mlen.toNat
    omega
  have hpos := padLen_pos s.mlen.toNat
  have hle := padLen_le hm
  obtain ⟨a, hrunA, hinA, hbA, hbufA, hplenA⟩ := runSteps_pad (es := []) hb hm rfl hi
  have hturns : List.replicate (1 + n) Event.core = List.replicate n .core ++ [.core] := by
    rw [Nat.add_comm, List.replicate_succ']
  rw [hturns, List.append_assoc, List.append_assoc] at hinA
  have hbusy : (List.replicate n Event.core).all isBusyPeriodEvent = true := by simp [isBusyPeriodEvent]
  obtain ⟨b, hrunB, hinB, hbB, -, hplenB, hbufB⟩ := encThenDecRestoresBuffer a n _ [] _ _ hbA (by omega) (by omega)
    (hplenA.trans hlen) hbusy (List.count_replicate_self ..) rfl hbusy (List.count_replicate_self ..) hinA
  have hplenB : b.plen.toNat = padLen s.mlen.toNat := hplenB ▸ hplenA
  have hbufB (x : Nat) : readByte b.buf x = readByte (padBuffer s.buf s.mlen.toNat) x := hbufA ▸ hbufB x
  have hokB (strict : Bool) : padOK b.plen.toNat b.buf strict = true := by
    rw [hplenB, padOK_congr _ _ hbufB, padOK_padBuffer]
  obtain ⟨u, hrunU, hinU, hbU, hcodeU, hbufU, hmlenU⟩ := runSteps_unpad (es := []) hbB (hplenB ▸ hle) hokB rfl hinB
  have hdoneU : u.done = true := done_of_runSteps_unpad hbB (hplenB ▸ hle) hinB hrunU hbU
  refine ⟨u, ?run, hinU, hbU, hdoneU, hcodeU, ?mlen, fun x hx => ?message⟩
  case run =>
    rw [List.length_replicate, List.length_nil] at hrunB
    have hsteps : 2 * n + 8 = 2 + ((n + 0 + n + 4) + 2) := by omega
    rw [hsteps, runSteps_add (m := 2) _ hrunA, runSteps_add _ hrunB]
    exact hrunU
  case mlen =>
    have hpad : padByte b.plen.toNat b.buf = BitVec.ofNat 8 (padValue s.mlen.toNat) := by
      rw [hplenB, padByte, hbufB]
      exact padByte_padBuffer s.buf s.mlen.toNat
    rw [hmlenU, hpad, hplenB, toNat_ofNat_padValue, padLen_sub_padValue, BitVec.ofNat_toNat]
    exact BitVec.setWidth_eq _
  case message => rw [hbufU, hbufB, readByte_padBuffer_message _ hx]

end Sys2Proof.Machine
end

section
/-! SUPPORT. The statements on the control commands: `NOP` completes inside its issue, and `ZEROIZE` from its issue through its
one core step. -/

namespace Sys2Proof.Machine

/-! ### `NOP` (43_control_cmds.md R230) -/

theorem exec_nop_idle {s : State} (hb : s.busy = false) : exec .nop s = .next { s with done := true, errcode := 0x00 } :=
  (exec_idle .nop hb).trans (congrArg _ (complete_beginIssue .none hb))

/-- Settles O24: the completion inside the issue leaves `FSM` idle, so `BUSY` stays 0; `DONE` is 1, so `irq` is `IE`. -/
theorem nopCompletesAtOnce : Obligations.NopCompletesAtOnce :=
  ⟨rfl, fun s hb => ⟨_, exec_nop_idle hb, rfl, hb, Bool.and_true s.ie⟩⟩

/-! ### `ZEROIZE` (43_control_cmds.md R231) -/

theorem exec_zeroize_idle {s : State} (hb : s.busy = false) : exec .zeroize s = .next (startRun .zeroize (beginIssue s)) :=
  exec_idle .zeroize hb

theorem coreStep_zeroize {s : State} (hb : s.busy = true) (hop : s.fsm.op = .zeroize) (hp : s.fsm.phase = .run) :
    coreStep s = .next (complete .none (zeroized s)) := by
  rw [coreStep_busy hb, busyStep_zeroize hop, inRun, if_pos hp, zeroizeStep]

theorem zeroBlock_getElem : ∀ k : Fin 16, zeroBlock[k] = 0x00 := by decide

theorem zeroKeys_getElem : ∀ i : Fin 11, zeroKeys[i] = zeroBlock := by decide

/-- Settles O25: the issue only starts the state machine, and its one core step completes the cleared state. -/
theorem zeroizeClearsKeyAndBuffer : Obligations.ZeroizeClearsKeyAndBuffer := by
  refine ⟨rfl, fun s hb => ⟨_, _, exec_zeroize_idle hb, rfl, rfl, coreStep_zeroize rfl rfl rfl, fun x hx => ?below,
    fun x hx => ?above, zeroBlock_getElem, rfl, rfl, zeroBlock_getElem, fun i k => ?roundKeys, rfl, rfl⟩⟩
  case below => exact (readByte_clearBuffer s.buf x).trans (if_pos hx)
  case above => exact (readByte_clearBuffer s.buf x).trans (if_neg (Nat.not_lt.mpr hx))
  case roundKeys => exact (congrArg (·[k]) (zeroKeys_getElem i)).trans (zeroBlock_getElem k)

end Sys2Proof.Machine
end

section
/-! SUPPORT. The statements on completion and exceptions: what a completion writes, that a failed command is precise, and
that every step from a state that meets the invariant goes on and keeps it. -/

namespace Sys2Proof.Machine

/-! ### Completion and its codes (60_exceptions.md R251, R252) -/

theorem code_eq_zero_iff (c : ErrCode) : c.code = 0x00 ↔ c = .none := by
  cases c <;> decide

/-- Only the reserved code lies above `0x04` (60_exceptions.md R251, R259). -/
theorem code_le_of_ne_reserved {c : ErrCode} (h : c ≠ .cryptoInitError) : c.code.toNat ≤ 4 := by
  cases c with
  | cryptoInitError => exact absurd rfl h
  | none | paddingError | messageTooLarge | invalidInput | illegalCmd => decide

/-- Settles O14: the completed block is idle with `DONE` set, so `irq` is `IE` and a core turn does nothing. -/
theorem completionWritesStatusAndCode : Obligations.CompletionWritesStatusAndCode := by
  intro c s
  have herr : (complete c s).err = true ↔ c ≠ .none := (err_iff _).trans (not_congr (code_eq_zero_iff c))
  exact ⟨rfl, rfl, Bool.and_true s.ie, herr, coreStep_idle rfl, rfl, rfl, rfl, rfl, rfl, rfl⟩

/-! ### A failed command is precise (60_exceptions.md R250) -/

theorem finishBlock_busy_or_errcode_zero (out chain : Block) (s : State) :
    (finishBlock out chain s).busy = s.busy ∨ (finishBlock out chain s).errcode = 0x00 := by
  obtain ⟨-, h⟩ | ⟨-, h⟩ := finishBlock_cases out chain s
  · exact .inr (h ▸ rfl)
  · exact .inl (h ▸ rfl)

/-- A core step goes on, ends its command with code 0, or is the padding error of `UNPAD`, which completes in place. -/
theorem busyStep_goesOn_succeeds_or_paddingError {s t : State} (h : busyStep s = .next t) :
    t.busy = s.busy ∨ t.errcode = 0x00 ∨ t = complete .paddingError s := by
  obtain ⟨-, -, hs⟩ | ⟨-, -, hs⟩ | ⟨-, hs⟩ | ⟨-, hs⟩ | ⟨-, -, rfl⟩ := busyStep_next h
  · obtain ⟨-, rfl⟩ := padStep_next hs
    exact .inr (.inl rfl)
  · obtain ⟨-, ⟨-, rfl⟩ | ⟨-, rfl⟩⟩ := unpadStep_next hs
    · exact .inr (.inl rfl)
    · exact .inr (.inr rfl)
  · obtain ⟨-, rfl⟩ | ⟨-, -, rfl⟩ := encStep_next hs
    · exact .inl rfl
    · exact (finishBlock_busy_or_errcode_zero _ _ s).imp_right .inl
  · obtain ⟨-, rfl⟩ | ⟨-, -, rfl⟩ := decStep_next hs
    · exact .inl rfl
    · exact (finishBlock_busy_or_errcode_zero _ _ s).imp_right .inl
  · exact .inr (.inl rfl)

/-- Settles O21: an issue fails only by completing at once, and a core step only by the padding error. -/
theorem failedCommandsArePrecise : Obligations.FailedCommandsArePrecise := by
  refine ⟨fun i s t hb h hcode => ?issue, fun s u hb h hidle hcode => ?core⟩
  case issue =>
    obtain rfl := Host.Outcome.next.inj ((exec_idle i hb).symm.trans h)
    obtain ⟨c, ha⟩ | ⟨op, ha⟩ | ⟨op, -, ha⟩ := acceptOf_cases i (beginIssue s) <;> rw [ha] at hcode ⊢
    · exact complete_beginIssue c hb
    · exact absurd rfl hcode
    · exact absurd rfl hcode
  case core =>
    obtain hbusy | hzero | rfl := busyStep_goesOn_succeeds_or_paddingError ((coreStep_busy hb).symm.trans h)
    · exact absurd (hbusy.trans hb) (by simp [hidle])
    · exact absurd hzero hcode
    · rfl

/-! ### The command in progress (10_state.md R41) -/

section
variable {s : State}

theorem commandInv_pad (h : s.fsm.op = .pad) : CommandInv s ↔ s.fsm.phase = .run ∧ s.mlen.toNat < 64 := by
  simp only [CommandInv, h]

theorem commandInv_unpad (h : s.fsm.op = .unpad) : CommandInv s ↔ s.fsm.phase = .run ∧ s.plen.toNat ≤ 64 := by
  simp only [CommandInv, h]

theorem commandInv_zeroize (h : s.fsm.op = .zeroize) : CommandInv s ↔ s.fsm.phase = .run := by
  simp only [CommandInv, h]

theorem commandInv_cipher (m : CbcMode) (h : s.fsm.op = m.op) : CommandInv s ↔ CipherInv s := by
  cases m <;> simp only [CommandInv, h, CbcMode.op]

theorem CipherInv.commandInv (hc : CipherInv s) (m : CbcMode) (h : s.fsm.op = m.op) : CommandInv s :=
  (commandInv_cipher m h).mpr hc

section
variable (d w : Bool) (es : List Event) (r : Option Byte) (n : Nat)

theorem CipherInv.hostFrame (h : CipherInv s) :
    CipherInv { s with done := d, wbusy := w, inputs := es, rdata := r, draws := n } :=
  ⟨h.phase_ne_run, h.plen_eq, h.nblk_pos, h.nblk_le, h.j_lt, h.rk_eq⟩

/-- The command in progress does not depend on `DONE`, `WBUSY` and the model's own fields. -/
theorem CommandInv.hostFrame (h : CommandInv s) :
    CommandInv { s with done := d, wbusy := w, inputs := es, rdata := r, draws := n } := by
  cases hop : s.fsm.op with
  | pad => simpa only [CommandInv, hop] using h
  | unpad => simpa only [CommandInv, hop] using h
  | enc => exact (((commandInv_cipher .encrypt hop).mp h).hostFrame d w es r n).commandInv .encrypt hop
  | dec => exact (((commandInv_cipher .decrypt hop).mp h).hostFrame d w es r n).commandInv .decrypt hop
  | zeroize => simpa only [CommandInv, hop] using h

end

/-- The key-expansion step leads to the first block (42_cbc_engine.md R203, R205). -/
theorem CipherInv.after_keyExpandStep (h : CipherInv s) : CipherInv (keyExpandStep s) where
  phase_ne_run := by simp
  plen_eq := h.plen_eq
  nblk_pos := h.nblk_pos
  nblk_le := h.nblk_le
  j_lt := h.nblk_pos
  rk_eq _ := rfl

/-- A block step that is not the last leads to the next block (42_cbc_engine.md R203, R205). -/
theorem CipherInv.after_storeBlock (h : CipherInv s) (out chain : Block) (hmore : s.fsm.j + 1 ≠ s.fsm.nblk) :
    CipherInv (storeBlock out chain s) where
  phase_ne_run := h.phase_ne_run
  plen_eq := h.plen_eq
  nblk_pos := h.nblk_pos
  nblk_le := h.nblk_le
  j_lt := Nat.lt_of_le_of_ne h.j_lt hmore
  rk_eq := h.rk_eq

end

/-- What the accept check of `ENC` and `DEC` lets through is one to four whole blocks (42_cbc_engine.md R202, R204). -/
theorem plen_of_cipherLen {plen : Byte} (h : cipherLen plen = true) :
    plen.toNat = 16 * blockCount plen ∧ 1 ≤ blockCount plen ∧ blockCount plen ≤ 4 := by
  obtain rfl | rfl | rfl | rfl := (cipherLen_iff plen).mp h <;> decide

theorem cipherInv_start {op : Op} {s : State} (h : cipherLen s.plen = true) :
    CipherInv (start op .kexp (blockCount s.plen) s) := by
  obtain ⟨hplen, hpos, hle⟩ := plen_of_cipherLen h
  exact ⟨by simp, hplen, hpos, hle, hpos, by simp⟩

/-! ### The ways a state meets the invariant -/

section
variable {s : State} {c : ErrCode} (hbuf : s.buf.wf = true) (hctrl : s.ctrl.toNat ≤ 3)
include hbuf hctrl

/-- An idle block owes nothing about a command in progress. -/
theorem BlockInv.of_idle (hb : s.busy = false) (herr : s.errcode.toNat ≤ 4) : BlockInv s :=
  have hidle : s.busy ≠ true := ne_true_of_eq_false hb
  ⟨hbuf, hctrl, herr, fun h => absurd h hidle, fun h => absurd h hidle, fun h => absurd h hidle⟩

theorem BlockInv.of_command (hdone : s.done = false) (herr : s.errcode = 0x00) (hcmd : CommandInv s) : BlockInv s :=
  ⟨hbuf, hctrl, herr ▸ Nat.zero_le 4, fun _ => hdone, fun _ => herr, fun _ => hcmd⟩

/-- Every completion but one with the reserved code leaves the invariant (60_exceptions.md R252, R259). -/
theorem BlockInv.of_complete (hc : c ≠ .cryptoInitError) : BlockInv (complete c s) :=
  .of_idle hbuf hctrl rfl (code_le_of_ne_reserved hc)

end

/-- The invariant does not depend on `WBUSY` and the model's own fields, and `DONE` may be cleared. -/
theorem BlockInv.hostFrame {s : State} (h : BlockInv s) {d : Bool} (hd : s.done = false → d = false) (w : Bool)
    (es : List Event) (r : Option Byte) (n : Nat) :
    BlockInv { s with done := d, wbusy := w, inputs := es, rdata := r, draws := n } where
  buf_wf := h.buf_wf
  ctrl_le := h.ctrl_le
  errcode_le := h.errcode_le
  busy_done hb := hd (h.busy_done hb)
  busy_errcode := h.busy_errcode
  busy_command hb := (h.busy_command hb).hostFrame d w es r n

theorem BlockInv.after_clearRdata {s : State} (h : BlockInv s) : BlockInv (clearRdata s) := h.hostFrame id _ _ _ _

theorem BlockInv.after_takeEvent {s : State} (h : BlockInv s) (rest : List Event) : BlockInv (takeEvent rest s) :=
  h.hostFrame id _ _ _ _

/-! ### The issue of a command keeps the invariant (30_encoding.md R106) -/

section
variable {s : State} (h : BlockInv s)
include h

theorem BlockInv.after_padAccept : BlockInv (padAccept (beginIssue s)) := by
  by_cases hm : s.mlen.toNat < 64
  · rw [padAccept_accepted (s := beginIssue s) hm]
    exact .of_command h.buf_wf h.ctrl_le rfl rfl ((commandInv_pad rfl).mpr ⟨rfl, hm⟩)
  · rw [padAccept_refused (s := beginIssue s) (Nat.not_lt.mp hm)]
    exact .of_complete h.buf_wf h.ctrl_le (by decide)

theorem BlockInv.after_unpadAccept : BlockInv (unpadAccept (beginIssue s)) := by
  by_cases hp : s.plen.toNat ≤ 64
  · rw [unpadAccept_accepted (s := beginIssue s) hp]
    exact .of_command h.buf_wf h.ctrl_le rfl rfl ((commandInv_unpad rfl).mpr ⟨rfl, hp⟩)
  · rw [unpadAccept_refused (s := beginIssue s) (Nat.not_le.mp hp)]
    exact .of_complete h.buf_wf h.ctrl_le (by decide)

theorem BlockInv.after_cipherAccept (m : CbcMode) : BlockInv (cipherAccept m.op (beginIssue s)) := by
  unfold cipherAccept
  split
  next hlen =>
    exact .of_command h.buf_wf h.ctrl_le rfl rfl ((cipherInv_start (s := beginIssue s) hlen).commandInv m rfl)
  next => exact .of_complete h.buf_wf h.ctrl_le (by decide)

theorem BlockInv.after_acceptOf (i : Instr) : BlockInv (acceptOf i (beginIssue s)) := by
  cases i with
  | nop => exact .of_complete h.buf_wf h.ctrl_le (by decide)
  | pad => exact h.after_padAccept
  | unpad => exact h.after_unpadAccept
  | enc => exact h.after_cipherAccept .encrypt
  | dec => exact h.after_cipherAccept .decrypt
  | zeroize => exact .of_command h.buf_wf h.ctrl_le rfl rfl ((commandInv_zeroize rfl).mpr rfl)

/-! ### A host write keeps the invariant (20_memory.md R74) -/

theorem BlockInv.after_busWrite {a v : Byte} {t : State} (ht : busWrite a v s = .next t) : BlockInv t := by
  obtain rfl | rfl | ⟨-, rfl⟩ | ⟨hb, ⟨i, rfl⟩ | ⟨i, rfl⟩ | rfl | rfl | rfl | ⟨i, -, rfl⟩ | rfl⟩ :=
    busWrite_cases ht
  · exact h.hostFrame (fun hdone => by simp [hdone]) _ _ _ _
  · exact h
  · exact h.hostFrame id _ _ _ _
  · exact .of_idle (wf_writeByte v h.buf_wf i.isLt) h.ctrl_le hb h.errcode_le
  · exact .of_idle h.buf_wf h.ctrl_le hb h.errcode_le
  · exact .of_idle h.buf_wf (Nat.le_of_lt_succ (ctrlMask_bits v).2.2) hb h.errcode_le
  · exact .of_idle h.buf_wf h.ctrl_le hb h.errcode_le
  · exact .of_idle h.buf_wf h.ctrl_le hb h.errcode_le
  · exact h.after_acceptOf i
  · exact .of_complete h.buf_wf h.ctrl_le (by decide)

end

/-! ### A core step goes on and keeps the invariant (00_scope.md R9) -/

/-- The padding of an accepted `PAD` lies in the buffer (40_padder.md R132, 20_memory.md R78). -/
theorem wf_padBuffer {b : Memory} {m : Nat} (h : b.wf = true) (hm : m < 64) : (padBuffer b m).wf = true := by
  refine wf_memWrite h ?_
  rw [length_rep, add_padValue]
  exact padLen_le hm

theorem wf_clearBuffer {b : Memory} (h : b.wf = true) : (clearBuffer b).wf = true := by
  rw [clearBuffer_eq_nil h]
  rfl

section
variable {s : State} (h : BlockInv s) (hb : s.busy = true)
include h hb

theorem BlockInv.coreStep_goesOn_pad (hop : s.fsm.op = .pad) : ∃ t, coreStep s = .next t ∧ BlockInv t := by
  obtain ⟨hp, hm⟩ := (commandInv_pad hop).mp (h.busy_command hb)
  exact ⟨_, coreStep_pad_eq hb hop hp hm, .of_complete (wf_padBuffer h.buf_wf hm) h.ctrl_le (by decide)⟩

theorem BlockInv.coreStep_goesOn_unpad (hop : s.fsm.op = .unpad) : ∃ t, coreStep s = .next t ∧ BlockInv t := by
  obtain ⟨hp, hlen⟩ := (commandInv_unpad hop).mp (h.busy_command hb)
  rw [coreStep_unpad hb hop hp, unpadStep_eq hlen]
  split
  · exact ⟨_, rfl, .of_complete h.buf_wf h.ctrl_le (by decide)⟩
  · exact ⟨_, rfl, .of_complete h.buf_wf h.ctrl_le (by decide)⟩

theorem BlockInv.coreStep_goesOn_zeroize (hop : s.fsm.op = .zeroize) : ∃ t, coreStep s = .next t ∧ BlockInv t := by
  have hp := (commandInv_zeroize hop).mp (h.busy_command hb)
  exact ⟨_, coreStep_zeroize hb hop hp, .of_complete (wf_clearBuffer h.buf_wf) h.ctrl_le (by decide)⟩

/-- The key-expansion step goes on to the first block; a block step goes on to the next block or completes. -/
theorem BlockInv.coreStep_goesOn_cipher (m : CbcMode) (hop : s.fsm.op = m.op) :
    ∃ t, coreStep s = .next t ∧ BlockInv t := by
  have hcmd : CipherInv s := (commandInv_cipher m hop).mp (h.busy_command hb)
  cases hp : s.fsm.phase with
  | run => exact absurd hp hcmd.phase_ne_run
  | kexp =>
    refine ⟨_, (coreStep_busy hb).trans (busyStep_kexp (hop ▸ m.op_enc_or_dec) hp), ?_⟩
    exact .of_command h.buf_wf h.ctrl_le (h.busy_done hb) (h.busy_errcode hb)
      (hcmd.after_keyExpandStep.commandInv m hop)
  | blk =>
    have hj : s.fsm.j < 4 := Nat.lt_of_lt_of_le hcmd.j_lt hcmd.nblk_le
    have hbuf : (m.blockStep s).buf.wf = true := wf_writeBlock _ h.buf_wf hj
    by_cases hlast : s.fsm.j + 1 = s.fsm.nblk
    · exact ⟨_, m.coreStep_blk_last hb hop hp hj hlast, .of_complete hbuf h.ctrl_le (by decide)⟩
    · refine ⟨_, m.coreStep_blk_not_last hb hop hp hj hlast, ?_⟩
      exact .of_command hbuf h.ctrl_le (h.busy_done hb) (h.busy_errcode hb)
        ((hcmd.after_storeBlock _ _ hlast).commandInv m hop)

end

theorem BlockInv.coreStep_goesOn {s : State} (h : BlockInv s) : ∃ t, coreStep s = .next t ∧ BlockInv t := by
  cases hb : s.busy with
  | false => exact ⟨s, coreStep_idle hb, h⟩
  | true =>
    cases hop : s.fsm.op with
    | pad => exact h.coreStep_goesOn_pad hb hop
    | unpad => exact h.coreStep_goesOn_unpad hb hop
    | enc => exact h.coreStep_goesOn_cipher hb .encrypt hop
    | dec => exact h.coreStep_goesOn_cipher hb .decrypt hop
    | zeroize => exact h.coreStep_goesOn_zeroize hb hop

/-! ### One step, and every run from reset (60_exceptions.md R250) -/

theorem BlockInv.runEvent_goesOn {s : State} (h : BlockInv s) (e : Event) :
    ∃ t, runEvent e s = .next t ∧ BlockInv t := by
  cases e with
  | read a => exact ⟨_, rfl, h.hostFrame id _ _ _ _⟩
  | write a v =>
    obtain ⟨t, ht⟩ := busWrite_next a v s
    exact ⟨t, ht, h.after_busWrite ht⟩
  | core => exact h.coreStep_goesOn
  | reset => exact ⟨_, rfl, .of_idle rfl (Nat.zero_le 3) rfl (Nat.zero_le 4)⟩

/-- Settles O58: a step is the core's turn or one event, and each of them goes on and keeps the invariant. -/
theorem stepKeepsInvariant : Obligations.StepKeepsInvariant := by
  intro s h
  cases hi : s.inputs with
  | nil =>
    rw [step_nil hi]
    exact h.after_clearRdata.coreStep_goesOn
  | cons e rest =>
    rw [step_cons hi]
    exact (h.after_takeEvent rest).runEvent_goesOn e

theorem BlockInv.safeRun {s : State} (h : BlockInv s) (n : Nat) : SafeRun n s := by
  induction n generalizing s with
  | zero => exact ⟨s, rfl⟩
  | succ n ih =>
    obtain ⟨t, ht, hinv⟩ := stepKeepsInvariant s h
    rw [SafeRun, runSteps_succ_of_next ht]
    exact ih hinv

/-- Settles O59: the invariant holds at reset (O57), and every step keeps it (O58). -/
theorem noRunFromResetStops : Obligations.NoRunFromResetStops :=
  fun es n => (resetMeetsInvariant es).safeRun n

end Sys2Proof.Machine
end

section
/-! SUPPORT. The statements on reset and hazards: a reset at any time, and the number of core steps that a busy command takes. -/

namespace Sys2Proof.Machine

/-! ### Reset at any time (70_reset_and_hazards.md R280) -/

/-- Settles O13: the reset is the event the step takes, busy or not, and every register then has its reset value. -/
theorem resetAtAnyTimeClearsTheBlock : Obligations.ResetAtAnyTimeClearsTheBlock := fun _ _ hi =>
  ⟨_, step_reset hi, rfl, rfl, fun _ => rfl, zeroBlock_getElem, rfl, rfl, rfl, rfl, rfl, rfl, rfl, rfl,
    irq_eq_false_of_done rfl⟩

/-! ### The core steps of a busy command (70_reset_and_hazards.md R289) -/

/-- The block stays busy for exactly `n` core steps from `t` on, and is then complete. -/
def CompletesAfter (n : Nat) (t : State) : Prop :=
  (∀ k, k < n → ∃ u, coreSteps k t = .next u ∧ u.busy = true ∧ u.done = false) ∧
    ∃ u, coreSteps n t = .next u ∧ u.busy = false ∧ u.done = true

theorem completesAfter_zero {t : State} (hb : t.busy = false) (hd : t.done = true) : CompletesAfter 0 t :=
  ⟨fun k hk => absurd hk k.not_lt_zero, t, rfl, hb, hd⟩

theorem completesAfter_complete (c : ErrCode) (s : State) : CompletesAfter 0 (complete c s) :=
  completesAfter_zero rfl rfl

/-- One core step of a busy block comes before those of the state it leaves. -/
theorem CompletesAfter.succ {n : Nat} {s t : State} (hb : s.busy = true) (hd : s.done = false)
    (hs : coreStep s = .next t) (h : CompletesAfter n t) : CompletesAfter (n + 1) s := by
  obtain ⟨hbefore, hend⟩ := h
  refine ⟨fun k hk => ?_, by rwa [coreSteps_succ_of_next hs]⟩
  cases k with
  | zero => exact ⟨s, rfl, hb, hd⟩
  | succ k =>
    rw [coreSteps_succ_of_next hs]
    exact hbefore k (Nat.lt_of_succ_lt_succ hk)

theorem completesAfter_startRun_pad {s : State} (hd : s.done = false) (h : s.mlen.toNat < 64) :
    CompletesAfter 1 (startRun .pad s) :=
  .succ rfl hd (coreStep_pad_eq rfl rfl rfl h) (completesAfter_complete _ _)

/-- The core step of `UNPAD` completes whether its padding check passes or not (40_padder.md R135). -/
theorem completesAfter_startRun_unpad {s : State} (hd : s.done = false) (h : s.plen.toNat ≤ 64) :
    CompletesAfter 1 (startRun .unpad s) := by
  have hstep : coreStep (startRun .unpad s) = unpadStep (startRun .unpad s) := coreStep_unpad rfl rfl rfl
  cases hok : padOK s.plen.toNat s.buf s.strict with
  | true => exact .succ rfl hd (hstep.trans (unpadStep_of_padOK h hok)) (completesAfter_complete _ _)
  | false => exact .succ rfl hd (hstep.trans (unpadStep_of_not_padOK h hok)) (completesAfter_complete _ _)

theorem completesAfter_startRun_zeroize {s : State} (hd : s.done = false) : CompletesAfter 1 (startRun .zeroize s) :=
  .succ rfl hd (coreStep_zeroize rfl rfl rfl) (completesAfter_complete _ _)

theorem CbcMode.running_done (m : CbcMode) (n : Nat) (s : State) (k : Nat) : (m.running n s k).done = s.done := by
  cases k <;> rfl

/-- A command on `n` blocks that has taken `k` core steps of its `n + 1` completes after the others. -/
theorem CbcMode.completesAfter_running (m : CbcMode) {n : Nat} {s : State} (hd : s.done = false) (h1 : 1 ≤ n)
    (h4 : n ≤ 4) {k d : Nat} (h : k + d = n) : CompletesAfter (d + 1) (m.running n s k) := by
  have hdone : (m.running n s k).done = false := (m.running_done n s k).trans hd
  induction d generalizing k with
  | zero =>
    obtain rfl : k = n := h
    exact .succ (m.running_busy k s k) hdone (m.coreStep_running_last s h1 h4) (completesAfter_complete _ _)
  | succ d ih =>
    exact .succ (m.running_busy n s k) hdone (m.coreStep_running s (by omega) h4)
      (ih (by omega) ((m.running_done n s (k + 1)).trans hd))

/-! ### From the issue of a command to its completion -/

theorem CbcMode.commandSteps_instr (m : CbcMode) (s : State) : commandSteps m.instr s = 1 + blockCount s.plen := by
  cases m <;> rfl

section
variable {s t : State} (hb : s.busy = false) (hbusy : t.busy = true)
include hb hbusy

/-- A command that leaves the block busy has not completed in its issue (30_encoding.md R106). -/
theorem exec_ne_completed {i : Instr} (ht : exec i s = .next t) (c : Byte) :
    exec i s ≠ .next { s with done := true, errcode := c } := by
  intro h
  obtain rfl := Host.Outcome.next.inj (h.symm.trans ht)
  exact Bool.false_ne_true (hb.symm.trans hbusy)

theorem completesAfter_of_exec_pad (ht : exec .pad s = .next t) : CompletesAfter 1 t := by
  have hlen : s.mlen.toNat < 64 :=
    Nat.lt_of_not_le fun h => exec_ne_completed hb hbusy ht _ (exec_pad_refused hb h)
  obtain rfl := Host.Outcome.next.inj ((exec_pad_accepted hb hlen).symm.trans ht)
  exact completesAfter_startRun_pad rfl hlen

theorem completesAfter_of_exec_unpad (ht : exec .unpad s = .next t) : CompletesAfter 1 t := by
  have hlen : s.plen.toNat ≤ 64 :=
    Nat.le_of_not_lt fun h => exec_ne_completed hb hbusy ht _ (exec_unpad_refused hb h)
  obtain rfl := Host.Outcome.next.inj ((exec_unpad_accepted hb hlen).symm.trans ht)
  exact completesAfter_startRun_unpad rfl hlen

/-- `ENC` and `DEC` take the key-expansion step and one step for each of their one to four blocks. -/
theorem CbcMode.completesAfter_of_exec (m : CbcMode) (ht : exec m.instr s = .next t) :
    1 ≤ commandSteps m.instr s ∧ commandSteps m.instr s ≤ 5 ∧ CompletesAfter (commandSteps m.instr s) t := by
  have hlen : cipherLen s.plen = true :=
    by_contra fun h => exec_ne_completed hb hbusy ht _ (m.exec_refused hb h)
  obtain ⟨hplen, h1, h4⟩ := plen_of_cipherLen hlen
  obtain rfl := Host.Outcome.next.inj ((m.exec_running hb h1 h4 hplen).symm.trans ht)
  rw [m.commandSteps_instr, Nat.add_comm]
  exact ⟨Nat.le_add_left 1 _, Nat.succ_le_succ h4, m.completesAfter_running rfl h1 h4 (Nat.zero_add _)⟩

end

theorem completesAfter_of_exec_zeroize {s t : State} (hb : s.busy = false) (ht : exec .zeroize s = .next t) :
    CompletesAfter 1 t := by
  obtain rfl := Host.Outcome.next.inj ((exec_zeroize_idle hb).symm.trans ht)
  exact completesAfter_startRun_zeroize rfl

/-- Settles O54, by command: `NOP` is never busy; the others were accepted and run through their core steps. -/
theorem busyCommandsCompleteInTime : Obligations.BusyCommandsCompleteInTime := by
  intro i s t hb ht hbusy
  cases i with
  | nop => exact absurd (exec_nop_idle hb) (exec_ne_completed hb hbusy ht 0x00)
  | pad => exact ⟨Nat.le_refl 1, Nat.le_add_left 1 4, completesAfter_of_exec_pad hb hbusy ht⟩
  | unpad => exact ⟨Nat.le_refl 1, Nat.le_add_left 1 4, completesAfter_of_exec_unpad hb hbusy ht⟩
  | enc => exact CbcMode.encrypt.completesAfter_of_exec hb hbusy ht
  | dec => exact CbcMode.decrypt.completesAfter_of_exec hb hbusy ht
  | zeroize => exact ⟨Nat.le_refl 1, Nat.le_add_left 1 4, completesAfter_of_exec_zeroize hb ht⟩

end Sys2Proof.Machine
end
